-- ==== Sys2Proof/Word.lean ====
section
/-! DEFINITION. The two bit-vector types of the codec: the byte of the streams and the 16-bit word of the
registers (00_scope.md R8: all quantities are unsigned). -/

namespace Sys2Proof

/-- A byte: the unit of both streams (R8, R67). -/
abbrev Byte := BitVec 8

/-- A 16-bit register value: `LEN`, `SUM`, `REC[k]`, a host read (R20, R40). -/
abbrev Word := BitVec 16

end Sys2Proof
end

