-- ==== Sys2Proof/Config.lean ====
section
/-! DEFINITION. What is fixed for one machine and is not state (10_state.md R43): the document's constants
(00_scope.md R6), the open parameters (92_eei_decisions.md section 6) as constants without a body, and the
free values the spec leaves unspecified. -/

namespace Sys2Proof

/-- The two levels of a sensor line (45_session_sequencer.md R249). -/
inductive Level where
  | low
  | high
  deriving DecidableEq, Repr, Inhabited

/-- The other level of a line. -/
def Level.flip : Level → Level
  | .low => .high
  | .high => .low

/-- The two length policies of 92_eei_decisions.md D11. -/
inductive LengthPolicy where
  | A
  | B
  deriving DecidableEq, Repr

namespace Config

/-- First signature byte, "P" (R6). -/
def sig0 : Byte := 0x42#8
/-- Second signature byte, "M" (R6). -/
def sig1 : Byte := 0x4D#8
/-- Number of record entries, `NREC` (R6). -/
def nrec : Nat := 13
/-- Nominal length field, `NOM_LEN` (R6). -/
def nomLen : Nat := 0x1C
/-- Largest accepted length field, `MAX_LEN` = 2 * `NOM_LEN` (R6, R157). -/
def maxLen : Nat := 2 * nomLen
/-- Function byte of read-data, `FN_READ` (R6). -/
def fnRead : Byte := 0xE2#8
/-- Function byte of the mode commands, `FN_MODE` (R6). -/
def fnMode : Byte := 0xE1#8
/-- Function byte of sleep and wake, `FN_SLEEP` (R6). -/
def fnSleep : Byte := 0xE4#8

/-- The length policy: A, as 90_conflicts.md C2 resolves it (log entry 8). -/
def lengthPolicy : LengthPolicy := .A

/-- How far `RXDEPTH` lies above the least depth the spec admits: open (92_eei_decisions.md D3; log entry 6). -/
opaque rxDepthAbove32 : Nat
/-- `RXDEPTH`: any natural number that is at least 32 (R7, R33). -/
def rxDepth : Nat := rxDepthAbove32 + 32

/-- How far `ACK_BYTES` lies above 1: open (92_eei_decisions.md D27; log entry 16). -/
opaque ackBytesAbove1 : Nat
/-- `ACK_BYTES`: any natural number that is at least 1 (R245). -/
def ackBytes : Nat := ackBytesAbove1 + 1

/-- `RESET_ASSERT_LEVEL`: open (R249; log entry 16). -/
opaque resetAssertLevel : Level
/-- `SLEEP_LEVEL`: open (R249; log entry 16). -/
opaque sleepLevel : Level
/-- `WAKE_LEVEL`: the level that is not `SLEEP_LEVEL` (R249). -/
def wakeLevel : Level := sleepLevel.flip

/-! Free values. Each is applied to a counter the state carries (log entries 5, 18, 19, 22). The registers
that `RESET` leaves unspecified keep the ranges of 10_state.md R20 and R41. -/

opaque freeStatus : Nat → Fin 5
opaque freeNreq : Nat → Fin 14
opaque freeNval : Nat → Fin 14
opaque freePos : Nat → Fin 55
opaque freeHold : Nat → Byte
opaque freeLen : Nat → Word
opaque freeSum : Nat → Word
/-- Free `REC[k]`: the counter, then `k`. -/
opaque freeRecord : Nat → Nat → Word
/-- Free `TXBUF[i]`: the counter, then `i`. -/
opaque freeTxbuf : Nat → Nat → Byte
/-- What a host read of an unlisted number or of `OPREQ` returns (R40). -/
opaque freeRead : Nat → Word
/-- What `AVAIL` reads when the queue holds more bytes than 16 bits can count (log entry 18). -/
opaque freeAvail : Nat → Word

end Config
end Sys2Proof
end

