-- ==== Sys2Proof/Syntax.lean ====
section
/-! DEFINITION. The operations and frames of spec/opcode_table.json, one constructor a row. -/

namespace Sys2Proof

/-- Every row of the opcode table: eleven request words the host gives the block (30_encoding.md R100, R101), five
command frames that go out on the wire (R97), one measurement frame that comes in (R91). -/
inductive Instr where
  /-- `SKIP`, request word `0x10` (R130). -/
  | skip
  /-- `DECODE n`, request word `0x20 + n`; well formed for `n` at most 13 (R150). -/
  | decode (n : BitVec 4)
  /-- `ENCODE READ`, request word `0x30` (R191). -/
  | encodeRead
  /-- `ENCODE PASSIVE`, request word `0x31` (R192). -/
  | encodePassive
  /-- `ENCODE ACTIVE`, request word `0x32` (R193). -/
  | encodeActive
  /-- `ENCODE SLEEP`, request word `0x33` (R194). -/
  | encodeSleep
  /-- `ENCODE WAKE`, request word `0x34` (R195). -/
  | encodeWake
  /-- `ENCODE RESET`, request word `0x35`: a command without a frame (R196). -/
  | encodeReset
  /-- Reserved `ENCODE 6` and `ENCODE 7`: the low bit of the word (R197). -/
  | encodeRsvd67 (x : BitVec 1)
  /-- Reserved `ENCODE 8` to `ENCODE 15`: the low three bits of the word (R197). -/
  | encodeRsvd815 (x : BitVec 3)
  /-- `FLUSH`, request word `0x40` (R134). -/
  | flush
  /-- Transmitted frame of read-data (R97). -/
  | cmdRead
  /-- Transmitted frame of set-passive-mode (R97). -/
  | cmdPassive
  /-- Transmitted frame of set-active-mode (R97). -/
  | cmdActive
  /-- Transmitted frame of sleep (R97). -/
  | cmdSleep
  /-- Transmitted frame of wake (R97). -/
  | cmdWake
  /-- A received measurement frame: its payload fields and the checksum it carries. The length field is
  `2 * fields.length + 2` (R91, R92). -/
  | mframe (fields : List Word) (chk : Word)
  deriving DecidableEq, Repr

/-- The commands of the document's list (30_encoding.md R101), with `reset`, which has no frame (R105). -/
inductive Command where
  | readData
  | setPassive
  | setActive
  | sleep
  | wake
  | reset
  deriving DecidableEq, Repr

/-- Where a coded word stands: the three formats of 30_encoding.md R90. -/
inductive Channel where
  /-- The request register `OPREQ`: host to block. -/
  | opreq
  /-- The transmit stream: command frames. -/
  | tx
  /-- The receive stream: measurement frames. -/
  | rx
  deriving DecidableEq, Repr

end Sys2Proof
end

