-- ==== Sys2Proof/WellFormed.lean ====
section
/-! DEFINITION. Which terms of `Instr` the encoding tables give a word. -/

namespace Sys2Proof

/-- Most payload fields a frame of an accepted length carries: `(MAX_LEN - 2) / 2` = 27 (R90, R157). -/
def maxFields : Nat := (Config.maxLen - 2) / 2

/-- The operand limits: `DECODE` takes `n` at most 13 (R150), a measurement frame has a length field of at
most `0x38` (R90). -/
def Instr.wellFormed : Instr → Bool
  | .skip => true
  | .decode n => decide (n.toNat ≤ Config.nrec)
  | .encodeRead => true
  | .encodePassive => true
  | .encodeActive => true
  | .encodeSleep => true
  | .encodeWake => true
  | .encodeReset => true
  | .encodeRsvd67 _ => true
  | .encodeRsvd815 _ => true
  | .flush => true
  | .cmdRead => true
  | .cmdPassive => true
  | .cmdActive => true
  | .cmdSleep => true
  | .cmdWake => true
  | .mframe fields _ => decide (fields.length ≤ maxFields)

end Sys2Proof
end

