-- ==== Sys2Proof/Decode.lean ====
section
/-! DEFINITION. Big-endian assembly and the byte sum (43_checksum_bigendian.md), the command codes, the decoder
of the three formats (30_encoding.md R90) with its rejections by name, and the encoder beside it. -/

namespace Sys2Proof

/-! ### Byte order and checksum -/

/-- `be16(h, l)` = `{h, l}` (R210). -/
def be16 (h l : Byte) : Word := h ++ l

/-- The byte of a 16-bit value that goes on the wire first (R210). -/
def hiByte (v : Word) : Byte := v.extractLsb' 8 8

/-- The byte of a 16-bit value that goes on the wire second (R210). -/
def loByte (v : Word) : Byte := v.extractLsb' 0 8

/-- A 16-bit value in wire order (R61). -/
def beBytes (v : Word) : List Byte := [hiByte v, loByte v]

/-- One addition of the accumulator: `SUM +_16 zext_16(b)` (R211, R212). -/
def addByte (acc : Word) (b : Byte) : Word := acc + b.setWidth 16

/-- `sum16`: the byte sum modulo 65536 (R211). -/
def sum16 (bytes : List Byte) : Word := bytes.foldl addByte 0#16

/-! ### Command codes and frames -/

/-- The code bytes `c0 c1 c2` of a command in wire order; reset has none (R96). The byte order is the spec's
choice (C6, D18; log entry 26). -/
def commandCode : Command → Option (Byte × Byte × Byte)
  | .readData => some (0x00#8, 0x00#8, Config.fnRead)
  | .setPassive => some (0x00#8, 0x00#8, Config.fnMode)
  | .setActive => some (0x00#8, 0x01#8, Config.fnMode)
  | .sleep => some (0x00#8, 0x00#8, Config.fnSleep)
  | .wake => some (0x00#8, 0x01#8, Config.fnSleep)
  | .reset => none

/-- The command frame of a code: signature, code, big-endian byte sum of the first five bytes (R94, R190). -/
def commandFrame (code : Byte × Byte × Byte) : List Byte :=
  let head := [Config.sig0, Config.sig1, code.1, code.2.1, code.2.2]
  head ++ beBytes (sum16 head)

/-- The bytes a command puts on the wire; none for reset (R97). -/
def frameOf (c : Command) : List Byte :=
  match commandCode c with
  | some code => commandFrame code
  | none => []

/-- The command select `c` of `ENCODE` (R101). -/
def commandSelect : Command → BitVec 4
  | .readData => 0#4
  | .setPassive => 1#4
  | .setActive => 2#4
  | .sleep => 3#4
  | .wake => 4#4
  | .reset => 5#4

/-! ### Measurement frames -/

/-- The length field of a frame with that many payload fields: payload bytes plus two (R92). -/
def lengthField (fieldCount : Nat) : Word := BitVec.ofNat 16 (2 * fieldCount + 2)

/-- Payload fields in wire order, each big-endian (R61, R91). -/
def fieldBytes (fields : List Word) : List Byte := fields.flatMap beBytes

/-- The bytes of a measurement frame that its checksum covers: signature, length, payload (R93). -/
def summedBytes (fields : List Word) : List Byte :=
  [Config.sig0, Config.sig1] ++ beBytes (lengthField fields.length) ++ fieldBytes fields

/-- A whole measurement frame: the summed bytes, then the checksum (R91). -/
def measurementFrame (fields : List Word) (chk : Word) : List Byte := summedBytes fields ++ beBytes chk

/-- Pairs bytes into big-endian fields (R61); an odd last byte is no field. -/
def fieldsOf : List Byte → List Word
  | h :: l :: rest => be16 h l :: fieldsOf rest
  | _ => []

/-! ### The decoder -/

/-- Why a coded word is no instruction. -/
inductive Reject where
  /-- No byte, or fewer bytes than the format needs. -/
  | truncated
  /-- A request word whose operation field names no operation (R106). -/
  | reservedOperation (w : Byte)
  /-- A request word whose operand is reserved: `SKIP` or `FLUSH` with an operand, `DECODE` 14 or 15 (R106). -/
  | reservedOperand (w : Byte)
  /-- The bytes do not begin with the signature (R91, R94). -/
  | noSignature
  /-- A length field that is odd, zero or above `0x38` (R104). -/
  | illegalLength (l : Word)
  /-- A code that names no command (R96). -/
  | unknownCommand (c0 c1 c2 : Byte)
  /-- A command frame whose last two bytes are not the byte sum of the first five (R94). -/
  | wrongCommandSum
  deriving DecidableEq, Repr

/-- A legal `MFRAME` length: even, from 2 to `0x38` (R90). -/
def legalLength (l : Word) : Bool :=
  decide (l.toNat % 2 = 0) && decide (2 ≤ l.toNat) && decide (l.toNat ≤ Config.maxLen)

/-- The request word (R100, R101, R106). -/
def decodeRequest (w : Byte) : Except Reject Instr :=
  let op := w.extractLsb' 4 4
  let arg := w.extractLsb' 0 4
  if op = 1#4 then
    if arg = 0#4 then .ok .skip else .error (.reservedOperand w)
  else if op = 2#4 then
    if arg.toNat ≤ 13 then .ok (.decode arg) else .error (.reservedOperand w)
  else if op = 3#4 then
    if arg = 0#4 then .ok .encodeRead
    else if arg = 1#4 then .ok .encodePassive
    else if arg = 2#4 then .ok .encodeActive
    else if arg = 3#4 then .ok .encodeSleep
    else if arg = 4#4 then .ok .encodeWake
    else if arg = 5#4 then .ok .encodeReset
    else if arg.toNat < 8 then .ok (.encodeRsvd67 (arg.extractLsb' 0 1))
    else .ok (.encodeRsvd815 (arg.extractLsb' 0 3))
  else if op = 4#4 then
    if arg = 0#4 then .ok .flush else .error (.reservedOperand w)
  else .error (.reservedOperation w)

/-- The instruction of a command code (R96, R97). -/
def commandOfCode (c0 c1 c2 : Byte) : Except Reject Instr :=
  if c0 ≠ 0x00#8 then .error (.unknownCommand c0 c1 c2)
  else if c1 = 0x00#8 ∧ c2 = Config.fnRead then .ok .cmdRead
  else if c1 = 0x00#8 ∧ c2 = Config.fnMode then .ok .cmdPassive
  else if c1 = 0x01#8 ∧ c2 = Config.fnMode then .ok .cmdActive
  else if c1 = 0x00#8 ∧ c2 = Config.fnSleep then .ok .cmdSleep
  else if c1 = 0x01#8 ∧ c2 = Config.fnSleep then .ok .cmdWake
  else .error (.unknownCommand c0 c1 c2)

/-- A command frame at the head of the transmitted bytes, with the bytes after it (R94, R97). -/
def decodeTx : List Byte → Except Reject (Instr × List Byte)
  | s0 :: s1 :: c0 :: c1 :: c2 :: h :: l :: rest =>
    if s0 = Config.sig0 ∧ s1 = Config.sig1 then
      match commandOfCode c0 c1 c2 with
      | .error r => .error r
      | .ok i => if be16 h l = sum16 [s0, s1, c0, c1, c2] then .ok (i, rest) else .error .wrongCommandSum
    else .error .noSignature
  | _ => .error .truncated

/-- A measurement frame at the head of the received bytes, with the bytes after it (R91, R103). The checksum is a
field of the frame: a frame that carries a wrong one is still a frame, and `DECODE` answers `SumError` (R104). -/
def decodeRx : List Byte → Except Reject (Instr × List Byte)
  | s0 :: s1 :: lh :: ll :: body =>
    if s0 = Config.sig0 ∧ s1 = Config.sig1 then
      let l := be16 lh ll
      if legalLength l then
        match body.drop (l.toNat - 2) with
        | ch :: cl :: rest => .ok (.mframe (fieldsOf (body.take (l.toNat - 2))) (be16 ch cl), rest)
        | _ => .error .truncated
      else .error (.illegalLength l)
    else .error .noSignature
  | _ => .error .truncated

/-- The decoder, total on any bytes of any channel: the instruction at their head and the bytes after it. -/
def decode : Channel → List Byte → Except Reject (Instr × List Byte)
  | .opreq, w :: rest =>
    match decodeRequest w with
    | .ok i => .ok (i, rest)
    | .error r => .error r
  | .opreq, [] => .error .truncated
  | .tx, bytes => decodeTx bytes
  | .rx, bytes => decodeRx bytes

/-! ### The encoder -/

/-- A request word from its two fields (R100). -/
def requestWord (op arg : BitVec 4) : Byte := op ++ arg

/-- Which channel an instruction's word stands on (R90). -/
def Instr.channel : Instr → Channel
  | .skip | .decode _ | .encodeRead | .encodePassive | .encodeActive | .encodeSleep | .encodeWake
  | .encodeReset | .encodeRsvd67 _ | .encodeRsvd815 _ | .flush => .opreq
  | .cmdRead | .cmdPassive | .cmdActive | .cmdSleep | .cmdWake => .tx
  | .mframe _ _ => .rx

/-- The bytes of an instruction, first byte first (R91, R94, R100). -/
def encode : Instr → List Byte
  | .skip => [requestWord 1#4 0#4]
  | .decode n => [requestWord 2#4 n]
  | .encodeRead => [requestWord 3#4 (commandSelect .readData)]
  | .encodePassive => [requestWord 3#4 (commandSelect .setPassive)]
  | .encodeActive => [requestWord 3#4 (commandSelect .setActive)]
  | .encodeSleep => [requestWord 3#4 (commandSelect .sleep)]
  | .encodeWake => [requestWord 3#4 (commandSelect .wake)]
  | .encodeReset => [requestWord 3#4 (commandSelect .reset)]
  | .encodeRsvd67 x => [requestWord 3#4 (3#3 ++ x)]
  | .encodeRsvd815 x => [requestWord 3#4 (1#1 ++ x)]
  | .flush => [requestWord 4#4 0#4]
  | .cmdRead => frameOf .readData
  | .cmdPassive => frameOf .setPassive
  | .cmdActive => frameOf .setActive
  | .cmdSleep => frameOf .sleep
  | .cmdWake => frameOf .wake
  | .mframe fields chk => measurementFrame fields chk

/-! ### The host's reading of the opcode table -/

/-- The low `count` bytes of a number, most significant first. The table writes byte 0 of a frame leftmost, as the
most significant byte of its match (log entry 13). -/
def bytesOfNat : Nat → Nat → List Byte
  | 0, _ => []
  | count + 1, w => BitVec.ofNat 8 (w / 256 ^ count) :: bytesOfNat count w

/-- The longest frame the decoder reads: `4 + MAX_LEN` bytes (R104). -/
def longestFrame : Nat := 4 + Config.maxLen

/-- The received bytes that stand for a word of the table: its own bytes, then zeros up to the length its length
field gives. -/
def rxTableBytes (nbits w : Nat) : List Byte :=
  let bytes := bytesOfNat (nbits / 8) w ++ List.replicate longestFrame 0x00#8
  match bytes with
  | _ :: _ :: lh :: ll :: _ => bytes.take (max (nbits / 8) (4 + (be16 lh ll).toNat))
  | _ => bytes.take (nbits / 8)

/-- The channel and the bytes on which a word of the table stands: one byte is a request word, seven bytes that are a
command frame stand on the transmit stream, anything else arrives on the receive stream (log entry 13). -/
def tableUnit (nbits w : Nat) : Channel × List Byte :=
  if nbits = 8 then (.opreq, bytesOfNat 1 w)
  else
    match decodeTx (bytesOfNat (nbits / 8) w) with
    | .ok (_, []) => (.tx, bytesOfNat (nbits / 8) w)
    | _ => (.rx, rxTableBytes nbits w)

/-- The instruction the decoder reads from a word of the table. -/
def decodeTableWord (nbits w : Nat) : Option Instr :=
  match tableUnit nbits w with
  | (c, bytes) =>
    match decode c bytes with
    | .ok (i, _) => some i
    | .error _ => none

end Sys2Proof
end

