-- ==== Sys2Proof/Machine/State.lean ====
section
/-! DEFINITION. The state of the codec (10_state.md), of its transport and of the Device Session that is its host
(45_session_sequencer.md), as plain data, and the state after reset. -/

namespace Sys2Proof.Machine

/-! ### The block -/

/-- What the block is doing (R30). -/
inductive Phase where
  | idle
  | skip
  | sig0
  | sig1
  | lenh
  | lenl
  | pay
  | chkh
  | chkl
  deriving DecidableEq, Repr

/-- The codes of the `STATUS` register that the block writes (R270). -/
inductive Status where
  | ok
  | noData
  | readError
  | frameLengthMismatch
  | sumError
  deriving DecidableEq, Repr

/-- The received bytes not yet consumed, oldest first: the one memory of the block (R33, R60). -/
abbrev Memory := List Byte

/-- The canonical form of the receive queue: no longer than `RXDEPTH` (R20). Equal queues are equal lists. -/
abbrev Memory.wf (m : Memory) : Prop := m.length ≤ Config.rxDepth

/-- The complete state of the block (R20). -/
structure Block where
  /-- `RXQ` (R33). -/
  rxq : Memory
  /-- `PHASE` (R30). -/
  phase : Phase
  /-- `NREQ` (R31). -/
  nreq : BitVec 4
  /-- `POS` (R31). -/
  pos : BitVec 6
  /-- `HOLD` (R29). -/
  hold : Byte
  /-- `LEN` (R27). -/
  len : Word
  /-- `SUM` (R28). -/
  sum : Word
  /-- `REC[0..12]` (R21). -/
  record : Vector Word 13
  /-- `NVAL` (R23). -/
  nval : BitVec 4
  /-- `STATUS` (R24). -/
  status : Status
  /-- `TXBUF[0..6]` (R32). -/
  txbuf : Vector Byte 7
  /-- `TXVALID` (R26). -/
  txvalid : Bool
  deriving DecidableEq, Repr

/-! ### The session -/

/-- A tri-state belief (R231). -/
inductive Tri where
  | unknown
  | no
  | yes
  deriving DecidableEq, Repr

/-- The Device Session: its configuration (R230; a pin that is not configured is `none`) and its beliefs (R231). -/
structure Session where
  attached : Bool
  resetPin : Option Byte
  sleepPin : Option Byte
  modeActive : Tri
  modeSleep : Tri
  hasReceivedData : Bool
  hasSentCommand : Bool
  deriving DecidableEq, Repr

/-- What a session call returned last: a truth value, a status of the block, `NotInitialized` (R247), or the number of
bytes a plain write moved (R248). -/
inductive CallResult where
  | truth (b : Bool)
  | status (c : Status)
  | notInitialized
  | written (count : Nat)
  deriving DecidableEq, Repr

/-- One step of a session procedure in progress (R233 to R247). -/
inductive SessionAct where
  /-- Give the block a request word. -/
  | request (w : Byte)
  /-- Poll `BUSY` until it is 0 (R272). -/
  | await
  /-- `write(TXBUF[from .. from + count - 1])` (R236, R240). -/
  | write (start count : Nat)
  /-- Drive a line (R249). -/
  | pin (p : Byte) (l : Level)
  /-- A bounded wait for that many queued bytes; `atOnce` is a wait of duration 0 (R245). -/
  | wait (need : Nat) (atOnce : Bool)
  /-- Discard the acknowledgement when the wait before succeeded (R238). -/
  | dropAck
  /-- The mode update of a successful command (R241). -/
  | update (c : Command)
  /-- `hasReceivedData <- false; hasSentCommand <- false` (R234). -/
  | clearFlags
  /-- `hasSentCommand <- true` (R242). -/
  | markSent
  /-- Return a truth value. -/
  | finish (b : Bool)
  /-- Return the outcome of the last wait. -/
  | finishWait
  /-- Return `STATUS`, and note a received measurement when it is OK (R243). -/
  | finishRead
  deriving DecidableEq, Repr

/-- What the host does next, in program order (R75): a request, a register access (R40), a plain transport write
(R248), or a call of the session. -/
inductive HostAct where
  | request (w : Byte)
  | readReg (n : Nat)
  | writeReg (n : Nat) (w : Byte)
  | transmit (bytes : List Byte)
  | sendCommand (c : Command) (grace : Nat)
  | readMeasurement (n : Fin 14)
  | isWorking
  | waitForData (d : Nat)
  | waitForAck (d : Nat)
  deriving DecidableEq, Repr

/-! ### The transitions -/

/-- Which transition is taken (R11, R70, R74). -/
inductive Event where
  /-- `RX_PUSH(b)` (R71). -/
  | rxPush (b : Byte)
  /-- A burst of received bytes: as many `RX_PUSH` events, in order (R108). -/
  | rxBurst (bytes : List Byte)
  /-- `RX_TIMEOUT` (R72). -/
  | rxTimeout
  /-- The micro-step of the block. -/
  | block
  /-- The host's next action; a write moves every byte. -/
  | host
  /-- The host's pending write, answered with that many bytes (R248). -/
  | hostWrite (count : Nat)
  /-- The host's pending wait ends with failure (R245). -/
  | waitExpires
  /-- `RESET` of the block (R300). -/
  | reset
  deriving DecidableEq, Repr

/-- A pin write `PIN(pin, level)` (R249). -/
structure PinWrite where
  pin : Byte
  level : Level
  deriving DecidableEq, Repr

/-- The whole machine: the block, the transmit side of the transport, the lines, the session, and, as the model's own
fields, what the host has yet to do, which transitions come next or come again and again, and the counter of the free
values. -/
structure State where
  /-- The block (R20). -/
  block : Block
  /-- `TXWIRE`: every byte written to the transport, in order (R248). -/
  txwire : List Byte
  /-- The line writes, in order (R249). -/
  pins : List PinWrite
  /-- The session (R230, R231). -/
  session : Session
  /-- What is left of the session call in progress; empty when there is none (log entry 14). -/
  todo : List SessionAct
  /-- Outcome of the last bounded wait (R245). -/
  waitOk : Bool
  /-- What the last session call returned. -/
  result : Option CallResult
  /-- What the last host register read returned (R40). -/
  rdata : Word
  /-- What the host will do, in order (log entry 3). -/
  program : List HostAct
  /-- Which transitions come next (log entry 1). -/
  sched : List Event
  /-- Which transitions come again and again: once `sched` is used up the machine takes its default transition and these are
  scheduled anew, without end (20_memory.md R79; log entry 29). -/
  recurring : List Event
  /-- How many free values have been drawn (log entry 22). -/
  freeCount : Nat
  deriving DecidableEq, Repr

/-- Why the machine stops. -/
inductive Fault where
  /-- Raised by the payload micro-step when it is to write an entry above `REC[12]`. That needs `NREQ` above 13, which R41
  rules out, so no state that satisfies the legal-values invariant raises it. Safe: the machine stops where
  the spec gives nothing (log entry 21). -/
  | recordIndex
  deriving DecidableEq, Repr

/-- Why an instruction has no meaning. -/
inductive Refusal where
  /-- Raised by an arm of `exec` whose instruction has no meaning yet. Safe. -/
  | notModelled (mnemonic : String)
  deriving DecidableEq, Repr

/-! ### Reset -/

/-- The block after reset: `PHASE`, `RXQ` and `TXVALID` as R42 gives them; the spec leaves the others unspecified and the
model names zero for each (log entry 4). -/
def Block.reset : Block where
  rxq := []
  phase := .idle
  nreq := 0#4
  pos := 0#6
  hold := 0#8
  len := 0#16
  sum := 0#16
  record := Vector.replicate 13 0#16
  nval := 0#4
  status := .ok
  txbuf := Vector.replicate 7 0#8
  txvalid := false

/-- The session at its start: the beliefs as R232 gives them; the configuration is the model's choice (log entry 15). -/
def Session.initial : Session where
  attached := true
  resetPin := none
  sleepPin := none
  modeActive := .unknown
  modeSleep := .unknown
  hasReceivedData := false
  hasSentCommand := false

/-- The machine right after reset: nothing received, nothing sent, nothing to do. -/
def State.reset : State where
  block := Block.reset
  txwire := []
  pins := []
  session := Session.initial
  todo := []
  waitOk := false
  result := none
  rdata := 0#16
  program := []
  sched := []
  recurring := []
  freeCount := 0

end Sys2Proof.Machine
end

