-- ==== Sys2Proof/Machine/Operands.lean ====
section
/-! DEFINITION. The quantities the operations form from their operands and from the stream (30_encoding.md R102,
43_checksum_bigendian.md R216), and the host's register numbers (10_state.md R40). -/

namespace Sys2Proof.Machine

/-- `AVAIL`: the number of queued bytes (R10, R33). -/
def Block.avail (k : Block) : Nat := k.rxq.length

/-- The availability threshold of `DECODE n`: `(n + 2) * 2 + 2` (R102, R151). -/
def threshold (n : BitVec 4) : Nat := (n.toNat + 2) * 2 + 2

/-- `bad_length(L)` under a policy (R157; for policy B, 93_implementation_defined.md U9). -/
def badLengthUnder (p : LengthPolicy) (nreq : BitVec 4) (l : Word) : Bool :=
  l.getLsbD 0 || decide (l = 0#16) || decide (Config.maxLen < l.toNat) ||
    match p with
    | .A => false
    | .B => decide (2 * nreq.toNat < l.toNat - 2)

/-- `bad_length(L)` of this machine (R157). -/
def badLength (nreq : BitVec 4) (l : Word) : Bool := badLengthUnder Config.lengthPolicy nreq l

/-- The payload field that byte number `POS` belongs to (R158). -/
def Block.fieldIndex (k : Block) : Nat := k.pos.toNat / 2

/-- Byte number `POS` is the first byte of its field (R158). -/
def Block.atHighByte (k : Block) : Bool := decide (k.pos.toNat % 2 = 0)

/-- Byte number `POS` is the last of the payload (R158). -/
def Block.atLastPayloadByte (k : Block) : Bool := decide (k.pos.toNat + 1 = k.len.toNat - 2)

/-- The numeric code of a status (R270). -/
def Status.code : Status → BitVec 3
  | .ok => 0#3
  | .noData => 1#3
  | .readError => 2#3
  | .frameLengthMismatch => 3#3
  | .sumError => 4#3

/-- The numeric code of what a session call returned, where it is a status: the block's own, or 5, which only the session
produces (R247, R270). -/
def CallResult.code : CallResult → Option (BitVec 3)
  | .truth _ => none
  | .status c => some c.code
  | .notInitialized => some 5#3
  | .written _ => none

/-- The second name of status 5 (R247). -/
abbrev CallResult.noSerial : CallResult := .notInitialized

/-- The status of a code from 0 to 4 (R270). -/
def Status.ofCode (c : Fin 5) : Status :=
  if c = 0 then .ok
  else if c = 1 then .noData
  else if c = 2 then .readError
  else if c = 3 then .frameLengthMismatch
  else .sumError

/-- The numeric code of a phase (R40). -/
def Phase.code : Phase → BitVec 4
  | .idle => 0#4
  | .skip => 1#4
  | .sig0 => 2#4
  | .sig1 => 3#4
  | .lenh => 4#4
  | .lenl => 5#4
  | .pay => 6#4
  | .chkh => 7#4
  | .chkl => 8#4

/-- A phase in which a DECODE reads a byte (R72). -/
def Phase.decoding : Phase → Bool
  | .idle => false
  | .skip => false
  | .sig0 => true
  | .sig1 => true
  | .lenh => true
  | .lenl => true
  | .pay => true
  | .chkh => true
  | .chkl => true

end Sys2Proof.Machine
end

