-- ==== Sys2Proof/Machine/Flags.lean ====
section
/-! DEFINITION. The status flags of the block: the derived `BUSY`, the `FLAGS` register, the running checksum
(10_state.md R25, R26, R28, R40). -/

namespace Sys2Proof.Machine

/-- `BUSY` (R25). -/
def Block.busy (k : Block) : Bool := decide (k.phase ≠ .idle)

/-- The `FLAGS` register: `BUSY` in bit 0, `TXVALID` in bit 1 (R40). -/
def Block.flags (k : Block) : BitVec 2 := BitVec.ofBool k.txvalid ++ BitVec.ofBool k.busy

/-- `SUM <- SUM +_16 b` (R28, R211). -/
def Block.addSum (k : Block) (b : Byte) : Block := { k with sum := addByte k.sum b }

/-- A micro-step is enabled (R131, R153 to R160, R220). -/
def Block.microEnabled (k : Block) : Bool :=
  decide (k.phase = .skip) || (k.phase.decoding && decide (k.rxq ≠ []))

/-- A DECODE waits for a byte that is not there: `RX_TIMEOUT` is enabled (R72). -/
def Block.waiting (k : Block) : Bool := k.phase.decoding && decide (k.rxq = [])

end Sys2Proof.Machine
end

