-- ==== Sys2Proof/Machine/Ops.lean ====
section
/-! DEFINITION. The named operations over the receive queue, the registers and the transport: the stream primitives
(00_scope.md R10), ending an operation with a result (60_exceptions.md R275, the block's counterpart of taking an
exception), the reset event (70_reset_and_hazards.md R301). -/

namespace Sys2Proof.Machine

open Host (Outcome)

/-! ### The receive queue -/

/-- Append a byte unless the queue is full (R71). -/
def Memory.push (m : Memory) (b : Byte) : Memory :=
  if m.length < Config.rxDepth then m ++ [b] else m

/-- Append bytes one after the other (R71, R108). -/
def Memory.pushAll (m : Memory) (bytes : List Byte) : Memory := bytes.foldl Memory.push m

/-- `RX_PUSH(b)` (R71). -/
def Block.rxPush (k : Block) (b : Byte) : Block := { k with rxq := k.rxq.push b }

/-- As many `RX_PUSH` events as there are bytes (R108). -/
def Block.rxPushAll (k : Block) (bytes : List Byte) : Block := { k with rxq := k.rxq.pushAll bytes }

/-- Run a micro-step on the byte it pops; without a byte the step is not enabled and nothing changes (R10, R220). -/
def Block.onByte (k : Block) (f : Byte → Block → Except Fault Block) : Except Fault Block :=
  match k.rxq with
  | [] => .ok k
  | b :: rest => f b { k with rxq := rest }

/-- `flush()` (R10). -/
def Block.flushQueue (k : Block) : Block := { k with rxq := [] }

/-! ### Ending an operation -/

/-- `raise <Status>`: `STATUS <- code; PHASE <- IDLE` and nothing more (R10, R275). There is no return from it: the host
requests the next operation (R276). -/
def Block.raise (k : Block) (c : Status) : Block := { k with status := c, phase := .idle }

/-- `RX_TIMEOUT`: ends a DECODE that waits on an empty queue, and is not enabled otherwise (R72, R161). -/
def Block.rxTimeout (k : Block) : Block := if k.waiting then k.raise .readError else k

/-! ### The transmit buffer -/

/-- A produced frame: the seven bytes and `TXVALID <- 1` (R190). -/
def Block.loadTx (k : Block) (c0 c1 c2 : Byte) : Block :=
  let s := sum16 [Config.sig0, Config.sig1, c0, c1, c2]
  { k with
    txbuf := #v[Config.sig0, Config.sig1, c0, c1, c2, hiByte s, loByte s]
    txvalid := true }

/-- No frame: `TXVALID <- 0`, the buffer unchanged (R196, R197). -/
def Block.dropTx (k : Block) : Block := { k with txvalid := false }

/-! ### Whole-state operations -/

/-- The state with its block changed. -/
def State.mapBlock (s : State) (f : Block → Block) : State := { s with block := f s.block }

/-- A request takes effect when the block is idle and waits, changing nothing, when it is not (R73; log entry 20). -/
def State.whenIdle (s : State) (f : Block → Block) : Outcome State Fault Refusal :=
  if s.block.phase = .idle then .next (s.mapBlock f) else .next s

/-- The outcome of a micro-step as an outcome of the machine. -/
def State.ofMicro (s : State) (r : Except Fault Block) : Outcome State Fault Refusal :=
  match r with
  | .ok k => .next { s with block := k }
  | .error f => .fault f

/-- Bytes the transport takes: appended to `TXWIRE` (R248). -/
def State.transmit (s : State) (bytes : List Byte) : State := { s with txwire := s.txwire ++ bytes }

/-- The block after the `RESET` event: the three values R301 gives, every other register free (log entry 5). -/
def Block.afterReset (c : Nat) : Block where
  rxq := []
  phase := .idle
  nreq := BitVec.ofNat 4 (Config.freeNreq c)
  pos := BitVec.ofNat 6 (Config.freePos c)
  hold := Config.freeHold c
  len := Config.freeLen c
  sum := Config.freeSum c
  record := Vector.ofFn fun k => Config.freeRecord c k
  nval := BitVec.ofNat 4 (Config.freeNval c)
  status := Status.ofCode (Config.freeStatus c)
  txbuf := Vector.ofFn fun i => Config.freeTxbuf c i
  txvalid := false

/-- `RESET`: the block only; the host, the session and the wire are not part of it (R300, R303; log entry 28). -/
def State.resetBlock (s : State) : State :=
  { s with block := Block.afterReset s.freeCount, freeCount := s.freeCount + 1 }

end Sys2Proof.Machine
end

