-- ==== Sys2Proof/Machine/Encoder.lean ====
section
/-! DEFINITION. The ENCODE operation (42_encode.md). -/

namespace Sys2Proof.Machine

open Host (Outcome)

/-- `ENCODE c`: the frame of a command that has a code (R190); no frame for one that has none (R196). -/
def encodeCommand (c : Command) (k : Block) : Block :=
  match commandCode c with
  | some (c0, c1, c2) => k.loadTx c0 c1 c2
  | none => k.dropTx

/-- `ENCODE READ` (R191). -/
def execEncodeRead (s : State) : Outcome State Fault Refusal := s.whenIdle (encodeCommand .readData)

/-- `ENCODE PASSIVE` (R192). -/
def execEncodePassive (s : State) : Outcome State Fault Refusal := s.whenIdle (encodeCommand .setPassive)

/-- `ENCODE ACTIVE` (R193). -/
def execEncodeActive (s : State) : Outcome State Fault Refusal := s.whenIdle (encodeCommand .setActive)

/-- `ENCODE SLEEP` (R194). -/
def execEncodeSleep (s : State) : Outcome State Fault Refusal := s.whenIdle (encodeCommand .sleep)

/-- `ENCODE WAKE` (R195). -/
def execEncodeWake (s : State) : Outcome State Fault Refusal := s.whenIdle (encodeCommand .wake)

/-- `ENCODE RESET`: no frame (R196). -/
def execEncodeReset (s : State) : Outcome State Fault Refusal := s.whenIdle (encodeCommand .reset)

/-- `ENCODE 6` and `ENCODE 7`, reserved: no frame, whatever the low bit (R197). -/
def execEncodeRsvd67 (_x : BitVec 1) (s : State) : Outcome State Fault Refusal := s.whenIdle Block.dropTx

/-- `ENCODE 8` to `ENCODE 15`, reserved: no frame, whatever the low bits (R197). -/
def execEncodeRsvd815 (_x : BitVec 3) (s : State) : Outcome State Fault Refusal := s.whenIdle Block.dropTx

end Sys2Proof.Machine
end

