-- ==== Sys2Proof/Machine/Stream.lean ====
section
/-! DEFINITION. The stream alignment operations SKIP and FLUSH (40_skip_flush.md). -/

namespace Sys2Proof.Machine

open Host (Outcome)

/-- Request step of `SKIP` (R130). -/
def execSkip (s : State) : Outcome State Fault Refusal := s.whenIdle fun k => { k with phase := .skip }

/-- The SKIP micro-step (R131). -/
def skipStep (k : Block) : Block :=
  match k.rxq with
  | [] => { k with phase := .idle }
  | b :: rest => if b = Config.sig0 then { k with phase := .idle } else { k with rxq := rest }

/-- `FLUSH` (R134). -/
def execFlush (s : State) : Outcome State Fault Refusal := s.whenIdle Block.flushQueue

end Sys2Proof.Machine
end

