-- ==== Sys2Proof/Machine/Parse.lean ====
section
/-! DEFINITION. The DECODE operation (41_decode.md): the request step and one micro-step for each received byte. Each
`…Byte` function is the step on the byte `b` that was popped. -/

namespace Sys2Proof.Machine

open Host (Outcome)

/-- The request step on an idle block: too few bytes end it with NoData (R151), otherwise it starts (R152). -/
def startDecode (n : BitVec 4) (k : Block) : Block :=
  if k.avail < threshold n then k.raise .noData
  else { k with nreq := n, sum := 0#16, nval := 0#4, phase := .sig0 }

/-- `DECODE n` (R150). `n` of 14 or 15 is a reserved word, which the block ignores (R106; log entry 23). -/
def execDecode (n : BitVec 4) (s : State) : Outcome State Fault Refusal :=
  if n.toNat ≤ Config.nrec then s.whenIdle (startDecode n) else .next s

/-- First signature byte: not compared (R153). -/
def sig0Byte (b : Byte) (k : Block) : Block := { k.addSum b with phase := .sig1 }

/-- Second signature byte (R154). -/
def sig1Byte (b : Byte) (k : Block) : Block :=
  if b = Config.sig1 then { k.addSum b with phase := .lenh } else (k.addSum b).raise .readError

/-- High byte of the length field (R155). -/
def lenhByte (b : Byte) (k : Block) : Block := { k.addSum b with hold := b, phase := .lenl }

/-- Low byte of the length field and the length check (R156, R157). -/
def lenlByte (b : Byte) (k : Block) : Block :=
  let l := be16 k.hold b
  let k' := { k.addSum b with len := l }
  if badLength k.nreq l then k'.raise .frameLengthMismatch
  else if l = 2#16 then { k' with pos := 0#6, phase := .chkh }
  else { k' with pos := 0#6, phase := .pay }

/-- `REC[i] <- v; NVAL <- i + 1` (R158). -/
def storeField (i : Nat) (v : Word) (k : Block) : Except Fault Block :=
  if i < Config.nrec then .ok { k with record := k.record.setIfInBounds i v, nval := BitVec.ofNat 4 (i + 1) }
  else .error .recordIndex

/-- What a payload byte leaves behind besides the field it may complete: sum, position, phase (R158). -/
def advancePayload (b : Byte) (k : Block) : Block :=
  { k.addSum b with
    pos := k.pos + 1#6
    phase := if k.atLastPayloadByte then .chkh else .pay }

/-- Payload byte number `POS` (R158). -/
def payByte (b : Byte) (k : Block) : Except Fault Block :=
  if k.atHighByte then .ok { advancePayload b k with hold := b }
  else if k.fieldIndex < k.nreq.toNat then storeField k.fieldIndex (be16 k.hold b) (advancePayload b k)
  else .ok (advancePayload b k)

/-- High byte of the checksum: not summed (R159). -/
def chkhByte (b : Byte) (k : Block) : Block := { k with hold := b, phase := .chkl }

/-- Low byte of the checksum and the comparison (R160). -/
def chklByte (b : Byte) (k : Block) : Block := k.raise (if be16 k.hold b = k.sum then .ok else .sumError)

/-- The micro-step of the block, by phase (R220). It changes nothing where none is enabled. -/
def Block.micro (k : Block) : Except Fault Block :=
  match k.phase with
  | .idle => .ok k
  | .skip => .ok (skipStep k)
  | .sig0 => k.onByte fun b k' => .ok (sig0Byte b k')
  | .sig1 => k.onByte fun b k' => .ok (sig1Byte b k')
  | .lenh => k.onByte fun b k' => .ok (lenhByte b k')
  | .lenl => k.onByte fun b k' => .ok (lenlByte b k')
  | .pay => k.onByte payByte
  | .chkh => k.onByte fun b k' => .ok (chkhByte b k')
  | .chkl => k.onByte fun b k' => .ok (chklByte b k')

end Sys2Proof.Machine
end

