-- ==== Sys2Proof/Machine/Wire.lean ====
section
/-! DEFINITION. The frames of the opcode table as they pass on the wire: a command frame goes out by the transport's
`write` (45_session_sequencer.md R240, R248; log entry 11), a measurement frame comes in by `RX_PUSH` events
(20_memory.md R71, 30_encoding.md R108; log entry 12). -/

namespace Sys2Proof.Machine

open Host (Outcome)

/-- The frame of a command is transmitted: its seven bytes, byte 0 first (R94, R240). -/
def sendFrame (c : Command) (s : State) : Outcome State Fault Refusal := .next (s.transmit (frameOf c))

/-- The read-data frame goes out (R97). -/
def execCmdRead (s : State) : Outcome State Fault Refusal := sendFrame .readData s

/-- The set-passive-mode frame goes out (R97). -/
def execCmdPassive (s : State) : Outcome State Fault Refusal := sendFrame .setPassive s

/-- The set-active-mode frame goes out (R97). -/
def execCmdActive (s : State) : Outcome State Fault Refusal := sendFrame .setActive s

/-- The sleep frame goes out (R97). -/
def execCmdSleep (s : State) : Outcome State Fault Refusal := sendFrame .sleep s

/-- The wake frame goes out (R97). -/
def execCmdWake (s : State) : Outcome State Fault Refusal := sendFrame .wake s

/-- A measurement frame comes in: one `RX_PUSH` for each of its bytes, in order (R71, R91). A later DECODE parses it. -/
def execMframe (fields : List Word) (chk : Word) (s : State) : Outcome State Fault Refusal :=
  .next (s.mapBlock fun k => k.rxPushAll (measurementFrame fields chk))

end Sys2Proof.Machine
end

