-- ==== Sys2Proof/Machine/Dispatch.lean ====
section
/-! DEFINITION. The meaning of every instruction: one arm a constructor. -/

namespace Sys2Proof.Machine

def exec (i : Instr) (s : State) : Host.Outcome State Fault Refusal :=
  match i with
  | .skip => Sys2Proof.Machine.execSkip s
  | .decode n => Sys2Proof.Machine.execDecode n s
  | .encodeRead => Sys2Proof.Machine.execEncodeRead s
  | .encodePassive => Sys2Proof.Machine.execEncodePassive s
  | .encodeActive => Sys2Proof.Machine.execEncodeActive s
  | .encodeSleep => Sys2Proof.Machine.execEncodeSleep s
  | .encodeWake => Sys2Proof.Machine.execEncodeWake s
  | .encodeReset => Sys2Proof.Machine.execEncodeReset s
  | .encodeRsvd67 x => Sys2Proof.Machine.execEncodeRsvd67 x s
  | .encodeRsvd815 x => Sys2Proof.Machine.execEncodeRsvd815 x s
  | .flush => Sys2Proof.Machine.execFlush s
  | .cmdRead => Sys2Proof.Machine.execCmdRead s
  | .cmdPassive => Sys2Proof.Machine.execCmdPassive s
  | .cmdActive => Sys2Proof.Machine.execCmdActive s
  | .cmdSleep => Sys2Proof.Machine.execCmdSleep s
  | .cmdWake => Sys2Proof.Machine.execCmdWake s
  | .mframe fields chk => Sys2Proof.Machine.execMframe fields chk s

end Sys2Proof.Machine
end

