-- ==== Sys2Proof/Machine/Ports.lean ====
section
/-! DEFINITION. The host's register space (10_state.md R40). -/

namespace Sys2Proof.Machine

/-- The `AVAIL` register: the count of queued bytes; free when 16 bits cannot hold it (R40; log entry 18). -/
def Block.availReg (k : Block) : Word :=
  if k.avail < 65536 then BitVec.ofNat 16 k.avail else Config.freeAvail k.avail

/-- The readable registers by number, each zero-extended to 16 bits; `none` for `OPREQ` and for a number that is
not listed (R40). -/
def Block.readReg (k : Block) (n : Nat) : Option Word :=
  if n = 0x01 then some (k.status.code.setWidth 16)
  else if n = 0x02 then some (k.flags.setWidth 16)
  else if n = 0x03 then some (k.nval.setWidth 16)
  else if n = 0x04 then some k.len
  else if n = 0x05 then some k.sum
  else if n = 0x06 then some k.availReg
  else if n = 0x07 then some (k.phase.code.setWidth 16)
  else if h : 0x10 ≤ n ∧ n < 0x10 + 13 then some (k.record[n - 0x10]'(by omega))
  else if h : 0x20 ≤ n ∧ n < 0x20 + 7 then some ((k.txbuf[n - 0x20]'(by omega)).setWidth 16)
  else none

/-- A host read: the register's value, or a free value where the map lists none (R40; log entry 19). -/
def State.readPort (s : State) (n : Nat) : State :=
  match s.block.readReg n with
  | some v => { s with rdata := v }
  | none => { s with rdata := Config.freeRead s.freeCount, freeCount := s.freeCount + 1 }

end Sys2Proof.Machine
end

