-- ==== Sys2Proof/Machine/Session.lean ====
section
/-! DEFINITION. The Device Session's procedures (45_session_sequencer.md) as lists of session acts, and its updates of
its own beliefs. -/

namespace Sys2Proof.Machine

/-- The mode update of a successful send (R241). -/
def Session.afterCommand (e : Session) : Command → Session
  | .readData => e
  | .setPassive => { e with modeActive := .no }
  | .setActive => { e with modeActive := .yes }
  | .sleep => { e with modeSleep := .yes }
  | .wake => { e with modeActive := .yes, modeSleep := .no }
  | .reset => { e with modeActive := .yes, modeSleep := .no }

/-- `isWorking()` (R244). -/
def Session.isWorking (e : Session) : Bool := e.hasSentCommand && e.hasReceivedData

/-- The request words the session uses (R100). -/
def wordSkip : Byte := requestWord 1#4 0#4
def wordFlush : Byte := requestWord 4#4 0#4
def wordDecode (n : BitVec 4) : Byte := requestWord 2#4 n
def wordEncode (c : Command) : Byte := requestWord 3#4 (commandSelect c)

/-- Commands whose frame is preceded by a flush and followed by an acknowledgement (R236). -/
def commandAcked : Command → Bool
  | .readData => false
  | .setPassive => true
  | .setActive => false
  | .sleep => true
  | .wake => true
  | .reset => false

/-- The optional wait for data after a reset or a wake (R234, R235, R239). -/
def graceWait (grace : Nat) : List SessionAct := if grace > 0 then [.wait 1 false] else []

/-- `sendCommand(reset)` with a reset line (R234). -/
def planReset (p : Byte) (grace : Nat) : List SessionAct :=
  [.pin p Config.resetAssertLevel, .pin p Config.resetAssertLevel.flip, .request wordFlush, .update .reset, .clearFlags] ++
    graceWait grace ++ [.finish true]

/-- `sendCommand(sleep)` and `sendCommand(wake)` with a sleep line (R235). -/
def planSleepPin (p : Byte) (c : Command) (grace : Nat) : List SessionAct :=
  [.pin p (if c = .wake then Config.wakeLevel else Config.sleepLevel), .update c] ++
    (if c = .wake then graceWait grace else []) ++ [.finish true]

/-- The protocol path (R236 to R240, R242). -/
def planProtocol (c : Command) (grace : Nat) : List SessionAct :=
  [.request (wordEncode c), .write 0 5] ++
    (if commandAcked c then [.request wordFlush] else []) ++
    [.write 5 2] ++
    (if commandAcked c then [.wait Config.ackBytes false, .dropAck] else []) ++
    (if c = .wake then graceWait grace else []) ++
    [.update c, .markSent, .finish true]

/-- `sendCommand(cmd, wakeupGracePeriod)` (R233). -/
def planSend (e : Session) (c : Command) (grace : Nat) : List SessionAct :=
  if e.attached then
    match c with
    | .reset =>
      match e.resetPin with
      | some p => planReset p grace
      | none => [.finish false]
    | .sleep =>
      match e.sleepPin with
      | some p => planSleepPin p .sleep grace
      | none => planProtocol .sleep grace
    | .wake =>
      match e.sleepPin with
      | some p => planSleepPin p .wake grace
      | none => planProtocol .wake grace
    | .readData => planProtocol .readData grace
    | .setPassive => planProtocol .setPassive grace
    | .setActive => planProtocol .setActive grace
  else [.finish false]

/-- `DROPFRAME`: `SKIP`, then `DECODE 0` (R109), to its end. -/
def planDropFrame : List SessionAct := [.request wordSkip, .await, .request (wordDecode 0#4), .await]

/-- `readMeasurement` into a record of `n` values, once a transport is attached (R243). -/
def planRead (n : Fin 14) : List SessionAct :=
  [.request wordSkip, .await, .request (wordDecode (BitVec.ofNat 4 n)), .await, .finishRead]

end Sys2Proof.Machine
end

