-- ==== Sys2Proof/Machine/Turn.lean ====
section
/-! DEFINITION. The transitions of the machine (20_memory.md R70 to R74, 44_sequencing_access_system.md R220): how the
host's turn fetches and runs a request, a frame or a session act, what each event does, and which event comes when the
schedule names none. -/

namespace Sys2Proof.Machine

open Host (Outcome)

/-- What the environment answers to the host's turn: go on, a write that moved so many bytes (R248), a wait whose time ran
out (R245). -/
inductive Answer where
  | go
  | count (n : Nat)
  | expire
  deriving DecidableEq, Repr

/-- A request word is fetched: taken when the block is idle and then decoded and run, or ignored where it is reserved
(R106); left waiting when the block is busy (R73). `after` is the state with the word taken from the host. -/
def State.acceptRequest (s after : State) (w : Byte) : Outcome State Fault Refusal :=
  if s.block.phase = .idle then
    match decodeRequest w with
    | .ok i => exec i after
    | .error _ => .next after
  else .next s

/-- A plain transport write of the host (R248): a command frame runs as such, other bytes are only appended. `after` is the
state with the write taken from the host. -/
def State.transmitUnit (after : State) (bytes : List Byte) : Outcome State Fault Refusal :=
  match decode .tx bytes with
  | .ok (i, []) => exec i after
  | _ => .next (after.transmit bytes)

/-- The host's next program action (R75). Only a write takes a count; no action of the program itself expires. -/
def programTurn (a : Answer) (act : HostAct) (rest : List HostAct) (s : State) : Outcome State Fault Refusal :=
  let s' := { s with program := rest }
  match a with
  | .expire => .next s
  | .count n =>
    match act with
    | .transmit bytes =>
      if n < bytes.length then .next { s'.transmit (bytes.take n) with result := some (.written n) }
      else State.transmitUnit { s' with result := some (.written bytes.length) } bytes
    | _ => .next s
  | .go =>
    match act with
    | .request w => s.acceptRequest s' w
    | .readReg n => .next (s'.readPort n)
    | .writeReg n w => if n = 0x00 then s.acceptRequest s' w else .next s'
    | .transmit bytes => State.transmitUnit { s' with result := some (.written bytes.length) } bytes
    | .sendCommand c grace => .next { s' with todo := planSend s.session c grace }
    | .readMeasurement n =>
      if s.session.attached then .next { s' with todo := planRead n }
      else .next { s' with result := some .notInitialized }
    | .isWorking => .next { s' with result := some (.truth s.session.isWorking) }
    | .waitForData d => .next { s' with todo := [.wait 1 (decide (d = 0)), .finishWait] }
    | .waitForAck d => .next { s' with todo := [.wait Config.ackBytes (decide (d = 0)), .finishWait] }

/-- A write of the session: all bytes go on; a short write ends the call with `false` (R236, R246). -/
def State.sessionWrite (s after : State) (bytes : List Byte) : Answer → Outcome State Fault Refusal
  | .go => .next (after.transmit bytes)
  | .count n =>
    if n < bytes.length then
      .next { s.transmit (bytes.take n) with todo := [], result := some (.truth false) }
    else .next (after.transmit bytes)
  | .expire => .next s

/-- A bounded wait of the session (R245). -/
def State.sessionWait (s after : State) (need : Nat) (atOnce : Bool) : Answer → Outcome State Fault Refusal
  | .go =>
    if need ≤ s.block.avail then .next { after with waitOk := true }
    else if atOnce then .next { after with waitOk := false }
    else .next s
  | .expire => if need ≤ s.block.avail then .next s else .next { after with waitOk := false }
  | .count _ => .next s

/-- The end of `readMeasurement`: the result is `STATUS`; on OK a measurement has been received (R243). -/
def State.finishReading (after : State) : State :=
  { after with
    result := some (.status after.block.status)
    session := { after.session with
      hasReceivedData := decide (after.block.status = .ok) || after.session.hasReceivedData } }

/-- An act of the session that only `go` runs. -/
def State.sessionPlain (s after : State) (act : SessionAct) : Outcome State Fault Refusal :=
  match act with
  | .request w => s.acceptRequest after w
  | .await => if s.block.phase = .idle then .next after else .next s
  | .pin p l => .next { after with pins := s.pins ++ [⟨p, l⟩] }
  | .dropAck => .next { after with todo := if s.waitOk then planDropFrame ++ after.todo else after.todo }
  | .update c => .next { after with session := s.session.afterCommand c }
  | .clearFlags => .next { after with session := { s.session with hasReceivedData := false, hasSentCommand := false } }
  | .markSent => .next { after with session := { s.session with hasSentCommand := true } }
  | .finish b => .next { after with todo := [], result := some (.truth b) }
  | .finishWait => .next { after with todo := [], result := some (.truth s.waitOk) }
  | .finishRead => .next { after.finishReading with todo := [] }
  | .write _ _ => .next s
  | .wait _ _ => .next s

/-- The bytes `TXBUF[start .. start + count - 1]`. -/
def Block.txSlice (k : Block) (start count : Nat) : List Byte := (k.txbuf.toList.drop start).take count

/-- The next act of the session call in progress. -/
def sessionTurn (a : Answer) (act : SessionAct) (rest : List SessionAct) (s : State) : Outcome State Fault Refusal :=
  let after := { s with todo := rest }
  match act with
  | .write start count => s.sessionWrite after (s.block.txSlice start count) a
  | .wait need atOnce => s.sessionWait after need atOnce a
  | other =>
    match a with
    | .go => s.sessionPlain after other
    | .count _ => .next s
    | .expire => .next s

/-- The host's turn: the session call in progress goes on, or the next action of the program begins (R251). -/
def hostTurn (a : Answer) (s : State) : Outcome State Fault Refusal :=
  match s.todo with
  | act :: rest => sessionTurn a act rest s
  | [] =>
    match s.program with
    | act :: rest => programTurn a act rest s
    | [] => .next s

/-- The bytes of a burst that a decoded frame did not take arrive next. -/
def State.rescheduleBurst (s : State) : List Byte → State
  | [] => s
  | rest => { s with sched := .rxBurst rest :: s.sched }

/-- Received bytes: a measurement frame at their head arrives as such; other bytes are only queued (R71, R108). -/
def State.receiveBurst (s : State) (bytes : List Byte) : Outcome State Fault Refusal :=
  match decode .rx bytes with
  | .ok (i, rest) => exec i (s.rescheduleBurst rest)
  | .error _ => .next (s.mapBlock fun k => k.rxPushAll bytes)

/-- What an event does. An event that is not enabled changes nothing (log entry 1). -/
def takeEvent (e : Event) (s : State) : Outcome State Fault Refusal :=
  match e with
  | .rxPush b => .next (s.mapBlock fun k => k.rxPush b)
  | .rxBurst bytes => s.receiveBurst bytes
  | .rxTimeout => .next (s.mapBlock Block.rxTimeout)
  | .block => s.ofMicro s.block.micro
  | .host => hostTurn .go s
  | .hostWrite n => hostTurn (.count n) s
  | .waitExpires => hostTurn .expire s
  | .reset => .next s.resetBlock

/-- The host's pending act is a wait whose condition does not hold. -/
def State.waitPending (s : State) : Bool :=
  match s.todo with
  | .wait need _ :: _ => decide (s.block.avail < need)
  | _ => false

/-- The event that comes when the schedule names none: the block's micro-step, else the timeout of a waiting DECODE, else the
end of a wait that no queued byte fulfils, else the host (R79; log entry 2). -/
def State.defaultEvent (s : State) : Event :=
  if s.block.microEnabled then .block
  else if s.block.waiting then .rxTimeout
  else if s.waitPending then .waitExpires
  else .host

end Sys2Proof.Machine
end

