-- ==== Sys2Proof/Machine/Step.lean ====
section
/-! DEFINITION. One transition of the machine. -/

namespace Sys2Proof.Machine

/-- The transition the schedule names; when it names none, the default one, after which the recurring transitions are
scheduled again (00_scope.md R11, 20_memory.md R74, R79). -/
def step (s : State) : Host.Outcome State Fault Refusal :=
  match s.sched with
  | e :: rest => takeEvent e { s with sched := rest }
  | [] => takeEvent s.defaultEvent { s with sched := s.recurring }

/-- The state in which the next step fetches and runs a word of the opcode table: a request word is the host's next
action on an idle block, a command frame is the host's next write, anything else is the next burst received (log entry 3). -/
def State.withFetchWord (s : State) (nbits w : Nat) : State :=
  match tableUnit nbits w with
  | (.opreq, bytes) =>
    { s with
      block := { s.block with phase := .idle }
      todo := []
      program := .request (bytes.headD 0#8) :: s.program
      sched := .host :: s.sched }
  | (.tx, bytes) =>
    { s with
      todo := []
      program := .transmit bytes :: s.program
      sched := .host :: s.sched }
  | (.rx, bytes) => { s with sched := .rxBurst bytes :: s.sched }

end Sys2Proof.Machine
end

