-- ==== Sys2Proof/Safety.lean ====
section
/-! DEFINITION. The terms the claims use: legal register values (10_state.md R41), what holds at each phase of a DECODE
(41_decode.md R161, R214), a block left to run its micro-steps, the event that comes next, the
request the host gives in it, which events bring bytes, and how a grace wait can go. -/

namespace Sys2Proof.Machine

/-- Legal register values of the block (R20, R31, R41). `STATUS` holds a legal code by its type. -/
structure Block.Legal (k : Block) : Prop where
  queue : Memory.wf k.rxq
  nreq : k.nreq.toNat ≤ 13
  nval : k.nval.toNat ≤ 13
  pos : k.pos.toNat ≤ 54
  pay : k.phase = .pay → k.len.toNat % 2 = 0 ∧ k.len.toNat ≤ 56 ∧ k.pos.toNat < k.len.toNat - 2
  chk : k.phase = .chkh ∨ k.phase = .chkl →
    k.len.toNat % 2 = 0 ∧ 2 ≤ k.len.toNat ∧ k.len.toNat ≤ 56 ∧ k.pos.toNat = k.len.toNat - 2

/-- How many bytes of its frame the DECODE in progress has consumed and added to `SUM` (R68, R153 to R158). -/
def Block.summed (k : Block) : Nat :=
  match k.phase with
  | .idle => 0
  | .skip => 0
  | .sig0 => 0
  | .sig1 => 1
  | .lenh => 2
  | .lenl => 3
  | .pay => 4 + k.pos.toNat
  | .chkh => 2 + k.len.toNat
  | .chkl => 2 + k.len.toNat

/-- How many bytes of its frame the DECODE in progress has consumed. -/
def Block.consumed (k : Block) : Nat :=
  match k.phase with
  | .chkl => 3 + k.len.toNat
  | _ => k.summed

/-- How many record entries the DECODE in progress has written: the fields complete so far, at most `NREQ` (R23, R158). -/
def Block.written (k : Block) : Nat :=
  match k.phase with
  | .pay => min (k.pos.toNat / 2) k.nreq.toNat
  | .chkh => min ((k.len.toNat - 2) / 2) k.nreq.toNat
  | .chkl => min ((k.len.toNat - 2) / 2) k.nreq.toNat
  | _ => 0

/-- What holds while a DECODE is in progress: of the bytes the request step saw, those not yet consumed are still
queued (R161); the sum is a sum of the consumed bytes (R214); `NVAL` counts the written entries (R23). -/
structure Block.Parsing (k : Block) : Prop where
  queued : k.phase.decoding = true → threshold k.nreq ≤ k.rxq.length + k.consumed
  sum : k.phase.decoding = true → k.sum.toNat ≤ 255 * k.summed
  nval : k.phase.decoding = true → k.nval.toNat = k.written

/-- The invariant of the machine. -/
structure State.Inv (s : State) : Prop where
  legal : s.block.Legal
  parsing : s.block.Parsing

/-- The block runs that many micro-steps and nothing else happens (R132, R162). -/
def Block.run : Nat → Block → Except Fault Block
  | 0, k => .ok k
  | n + 1, k =>
    match k.micro with
    | .ok k' => Block.run n k'
    | .error f => .error f

/-- The event that comes next: the one the schedule names, or the default one (20_memory.md R74; log entries 1 and 2). -/
def State.nextEvent (s : State) : Event := s.sched.headD s.defaultEvent

/-- The next event is the host's turn, and in it the host gives the block the request word `w`: the session call in progress
does, or, when there is none, the program, as a request or as a write to `OPREQ` (20_memory.md R73, 10_state.md R40). -/
def State.requests (s : State) (w : Byte) : Prop :=
  s.nextEvent = .host ∧
    ((∃ acts, s.todo = .request w :: acts) ∨
      s.todo = [] ∧ ∃ ps, s.program = .request w :: ps ∨ s.program = .writeReg 0 w :: ps)

/-- The event brings received bytes (20_memory.md R79 (c)). -/
def Event.arrives : Event → Bool
  | .rxPush _ => true
  | .rxBurst _ => true
  | .rxTimeout => false
  | .block => false
  | .host => false
  | .hostWrite _ => false
  | .waitExpires => false
  | .reset => false

/-- How the optional wait for data after a reset or a wake can go (45_session_sequencer.md R234 step 5, R239, R245), with the
queue `q` and the last wait's outcome `ok` before it: the events it takes, the queue and the outcome after it. There is none for
a period of 0; otherwise it succeeds at once on queued bytes, and on an empty queue it runs out or a byte comes first. -/
inductive GraceWait (grace : Nat) (q : List Byte) (ok : Bool) : List Event → List Byte → Bool → Prop
  | absent (h : grace = 0) : GraceWait grace q ok [] q ok
  | fulfilled (h : 0 < grace) (hq : q ≠ []) : GraceWait grace q ok [.host] q true
  | expires (h : 0 < grace) (hq : q = []) : GraceWait grace q ok [.waitExpires] [] false
  | arrives (h : 0 < grace) (hq : q = []) (b : Byte) : GraceWait grace q ok [.rxPush b, .host] [b] true

end Sys2Proof.Machine
end

