-- ==== Sys2Proof/Certificates/Slice0/Obligations.lean ====
section
/-! DEFINITION. The statements for the provers. Each docstring names the rule of spec/ it formalises; where a clause rests on
a choice of the model, it names the log entry. -/

open Sys2Proof Sys2Proof.Machine

/-! ### Reset -/

/-- R42: of the reset values of the block, the three the spec gives; R232: the session starts with both modes unknown and
both flags false. -/
def Obligations.ResetLeavesBlockIdleAndSessionUnknown : Prop :=
  State.reset.block.phase = .idle ∧ State.reset.block.rxq = [] ∧ State.reset.block.txvalid = false ∧
    State.reset.session.modeActive = .unknown ∧ State.reset.session.modeSleep = .unknown ∧
    State.reset.session.hasReceivedData = false ∧ State.reset.session.hasSentCommand = false

/-- R300, R301: `RESET` is enabled in every state; it leaves the block idle, its queue empty, `TXVALID` 0, and says nothing of
the other registers of the block. That the host, the session and the wire keep their state is log entry 28; the
counter of the free values is the model's (log entry 22). -/
def Obligations.ResetEventClearsBlock : Prop :=
  ∀ (s : State) (es : List Event), s.sched = .reset :: es →
    ∃ k : Block, step s = .next { s with sched := es, block := k, freeCount := s.freeCount + 1 } ∧
      k.phase = .idle ∧ k.rxq = [] ∧ k.txvalid = false

/-! ### SKIP and FLUSH -/

/-- R130, the request step: the word `0x10` is SKIP; `PHASE <- SKIP`, nothing else changes. -/
def Obligations.SkipRequestStartsSkipping : Prop :=
  decode .opreq [0x10#8] = .ok (.skip, []) ∧
  ∀ s : State, s.block.phase = .idle → exec .skip s = .next { s with block := { s.block with phase := .skip } }

/-- R131: the SKIP micro-step is always enabled, ends on an empty queue, ends on `0x42`, and otherwise discards one byte, storing
and summing nothing, and goes on; it is never waiting, so `RX_TIMEOUT` is never enabled. -/
def Obligations.SkipMicroStep : Prop :=
  ∀ k : Block, k.phase = .skip →
    k.microEnabled = true ∧ k.waiting = false ∧
    (k.rxq = [] → k.micro = .ok { k with phase := .idle }) ∧
    (∀ q, k.rxq = 0x42#8 :: q → k.micro = .ok { k with phase := .idle }) ∧
    (∀ b q, k.rxq = b :: q → b ≠ 0x42#8 → k.micro = .ok { k with rxq := q })

/-- R132: with no arrival, a SKIP takes `i + 1` micro-steps, where `i` is the least index of a `0x42` (the length of the queue
if there is none), and removes exactly the first `i` bytes. -/
def Obligations.SkipDiscardsUpToSignature : Prop :=
  ∀ (k : Block) (i : Nat), k.phase = .skip → i ≤ k.rxq.length → (∀ b ∈ k.rxq.take i, b ≠ 0x42#8) →
    (k.rxq[i]? = some 0x42#8 ∨ i = k.rxq.length) →
      (∀ j, j ≤ i → Block.run j k = .ok { k with rxq := k.rxq.drop j }) ∧
      Block.run (i + 1) k = .ok { k with rxq := k.rxq.drop i, phase := .idle }

/-- R136: after a SKIP that ended with bytes in the queue, the head is `0x42`. -/
def Obligations.SkipEndsOnSignature : Prop :=
  ∀ k k' : Block, k.phase = .skip → k.micro = .ok k' → k'.phase = .idle → k'.rxq ≠ [] → k'.rxq.head? = some 0x42#8

/-- R134: the word `0x40` is FLUSH; it empties the queue in one step and every other register is unchanged. -/
def Obligations.FlushEmptiesQueue : Prop :=
  decode .opreq [0x40#8] = .ok (.flush, []) ∧
  ∀ s : State, s.block.phase = .idle → exec .flush s = .next { s with block := { s.block with rxq := [] } }

/-! ### DECODE: the request step -/

/-- R151, R152: the word `0x20 + n` is `DECODE n`; with fewer than `2n + 6` bytes available it ends with NoData and nothing else
changes; with as many it starts. -/
def Obligations.DecodeStartsWhenEnoughBytesWait : Prop :=
  ∀ (s : State) (n : BitVec 4), n.toNat ≤ 13 → s.block.phase = .idle →
    decode .opreq [0x20#8 + n.setWidth 8] = .ok (.decode n, []) ∧
    (s.block.rxq.length < 2 * n.toNat + 6 →
      exec (.decode n) s = .next { s with block := { s.block with status := .noData } }) ∧
    (2 * n.toNat + 6 ≤ s.block.rxq.length →
      exec (.decode n) s =
        .next { s with block := { s.block with nreq := n, sum := 0#16, nval := 0#4, phase := .sig0 } })

/-! ### DECODE: the micro-steps -/

/-- R153, R154: the first byte is consumed, summed and not compared; the second must be `0x4D`, else the DECODE ends with
ReadError. -/
def Obligations.OnlyTheSecondSignatureByteIsCompared : Prop :=
  ∀ (k : Block) (b : Byte) (q : List Byte), k.rxq = b :: q →
    (k.phase = .sig0 → k.micro = .ok { k with rxq := q, sum := k.sum + b.setWidth 16, phase := .sig1 }) ∧
    (k.phase = .sig1 → b = 0x4D#8 →
      k.micro = .ok { k with rxq := q, sum := k.sum + b.setWidth 16, phase := .lenh }) ∧
    (k.phase = .sig1 → b ≠ 0x4D#8 →
      k.micro = .ok { k with rxq := q, sum := k.sum + b.setWidth 16, status := .readError, phase := .idle })

/-- R155, R156, R157: the high byte of the length field is held; with the low byte the field is latched, rejected when it is
odd, zero or above 56, and otherwise leads to the payload, or straight to the checksum when it is 2. -/
def Obligations.LengthIsCheckedWhenComplete : Prop :=
  ∀ (k : Block) (b : Byte) (q : List Byte) (l : Word), k.rxq = b :: q → l = k.hold ++ b →
    (k.phase = .lenh →
      k.micro = .ok { k with rxq := q, sum := k.sum + b.setWidth 16, hold := b, phase := .lenl }) ∧
    (k.phase = .lenl → (l.toNat % 2 = 1 ∨ l = 0#16 ∨ 56 < l.toNat) →
      k.micro = .ok { k with
        rxq := q, sum := k.sum + b.setWidth 16, len := l, status := .frameLengthMismatch, phase := .idle }) ∧
    (k.phase = .lenl → l = 2#16 →
      k.micro = .ok { k with rxq := q, sum := k.sum + b.setWidth 16, len := l, pos := 0#6, phase := .chkh }) ∧
    (k.phase = .lenl → l.toNat % 2 = 0 → 4 ≤ l.toNat → l.toNat ≤ 56 →
      k.micro = .ok { k with rxq := q, sum := k.sum + b.setWidth 16, len := l, pos := 0#6, phase := .pay })

/-- R158: a payload byte is consumed and summed; a high byte is held; a low byte completes field `POS div 2`, which is stored
and counted when it is below `NREQ` and discarded otherwise. -/
def Obligations.PayloadByteIsHeldStoredOrDiscarded : Prop :=
  ∀ (k : Block) (b : Byte) (q : List Byte), k.phase = .pay → k.rxq = b :: q → k.nreq.toNat ≤ 13 →
    k.pos.toNat < k.len.toNat - 2 →
      ∃ (r : Vector Word 13) (m : BitVec 4) (h : Byte),
        k.micro = .ok { k with
          rxq := q, sum := k.sum + b.setWidth 16, pos := k.pos + 1#6, hold := h, record := r, nval := m
          phase := if k.pos.toNat + 1 = k.len.toNat - 2 then .chkh else .pay } ∧
        (k.pos.toNat % 2 = 0 → h = b ∧ r = k.record ∧ m = k.nval) ∧
        (k.pos.toNat % 2 = 1 → k.pos.toNat / 2 < k.nreq.toNat →
          h = k.hold ∧ m.toNat = k.pos.toNat / 2 + 1 ∧
            ∀ (j : Nat) (hj : j < 13), r[j] = if j = k.pos.toNat / 2 then k.hold ++ b else k.record[j]) ∧
        (k.pos.toNat % 2 = 1 → k.nreq.toNat ≤ k.pos.toNat / 2 → h = k.hold ∧ r = k.record ∧ m = k.nval)

/-- R159, R160: the high byte of the checksum is held and not summed; with the low byte the received checksum is compared with
the running sum. -/
def Obligations.ChecksumIsComparedAndNotSummed : Prop :=
  ∀ (k : Block) (b : Byte) (q : List Byte), k.rxq = b :: q →
    (k.phase = .chkh → k.micro = .ok { k with rxq := q, hold := b, phase := .chkl }) ∧
    (k.phase = .chkl → k.hold ++ b = k.sum →
      k.micro = .ok { k with rxq := q, status := .ok, phase := .idle }) ∧
    (k.phase = .chkl → k.hold ++ b ≠ k.sum →
      k.micro = .ok { k with rxq := q, status := .sumError, phase := .idle })

/-- R72: `RX_TIMEOUT` ends a DECODE that waits for a byte that is not there with ReadError, and does nothing in any other
state (an event that is not enabled changes nothing: log entry 1). -/
def Obligations.TimeoutEndsOnlyAWaitingDecode : Prop :=
  ∀ (s : State) (es : List Event), s.sched = .rxTimeout :: es →
    (s.block.phase ≠ .idle → s.block.phase ≠ .skip → s.block.rxq = [] →
      step s = .next { s with sched := es, block := { s.block with status := .readError, phase := .idle } }) ∧
    (s.block.phase = .idle ∨ s.block.phase = .skip ∨ s.block.rxq ≠ [] → step s = .next { s with sched := es })

/-! ### DECODE: whole operations -/

/-- R162 with R153 and R164: a DECODE whose whole frame is queued takes `4 + L` micro-steps after its request, whatever the
first byte is, consumes exactly the frame, stores the first `min((L-2)/2, n)` fields and no other, and answers OK exactly
when the received checksum is the byte sum. -/
def Obligations.DecodeParsesWholeFrame : Prop :=
  ∀ (s : State) (n : BitVec 4) (b0 : Byte) (fields : List Word) (chk : Word) (rest : List Byte),
    n.toNat ≤ 13 → fields.length ≤ 27 → s.block.phase = .idle →
    s.block.rxq = (b0 :: (encode (.mframe fields chk)).tail) ++ rest → 2 * n.toNat + 6 ≤ s.block.rxq.length →
      ∃ k1 k2 : Block, exec (.decode n) s = .next { s with block := k1 } ∧
        Block.run (2 * fields.length + 6) k1 = .ok k2 ∧
        k2.phase = .idle ∧ k2.rxq = rest ∧ k2.len.toNat = 2 * fields.length + 2 ∧
        k2.sum = sum16 (b0 :: (summedBytes fields).tail) ∧
        k2.nval.toNat = min fields.length n.toNat ∧
        (∀ (j : Nat) (hj : j < 13),
          k2.record[j] = if j < n.toNat then fields.getD j s.block.record[j] else s.block.record[j]) ∧
        k2.status = (if chk = k2.sum then .ok else .sumError) ∧
        k2.txbuf = s.block.txbuf ∧ k2.txvalid = s.block.txvalid

/-- R162 and R161: a DECODE whose frame stops after `m` bytes, `m` at least `2n + 6` and less than the frame's length, consumes
them all; the timeout then ends it with ReadError, every wanted field the frame has already stored. -/
def Obligations.DecodeOfATruncatedFrameTimesOut : Prop :=
  ∀ (s : State) (n : BitVec 4) (fields : List Word) (chk : Word) (m : Nat),
    n.toNat ≤ 13 → fields.length ≤ 27 → s.block.phase = .idle → 2 * n.toNat + 6 ≤ m → m < 2 * fields.length + 6 →
    s.block.rxq = (encode (.mframe fields chk)).take m →
      ∃ k1 k2 : Block, exec (.decode n) s = .next { s with block := k1 } ∧ Block.run m k1 = .ok k2 ∧
        k2.rxq = [] ∧ k2.rxTimeout = { k2 with status := .readError, phase := .idle } ∧
        k2.len.toNat = 2 * fields.length + 2 ∧ k2.sum = sum16 ((summedBytes fields).take m) ∧
        k2.nval.toNat = min fields.length n.toNat ∧
        (∀ (j : Nat) (hj : j < 13),
          k2.record[j] = if j < n.toNat then fields.getD j s.block.record[j] else s.block.record[j]) ∧
        k2.status = s.block.status

/-- R154, R271: a DECODE on a wrong second byte takes two micro-steps, consumes two bytes and answers ReadError, whatever
follows (R273). -/
def Obligations.DecodeOfAWrongSignatureReportsReadError : Prop :=
  ∀ (s : State) (n : BitVec 4) (b0 b1 : Byte) (rest : List Byte),
    n.toNat ≤ 13 → s.block.phase = .idle → s.block.rxq = b0 :: b1 :: rest → 2 * n.toNat + 6 ≤ s.block.rxq.length →
    b1 ≠ 0x4D#8 →
      ∃ k1 : Block, exec (.decode n) s = .next { s with block := k1 } ∧
        Block.run 2 k1 = .ok { s.block with
          rxq := rest, nreq := n, nval := 0#4, sum := b0.setWidth 16 + b1.setWidth 16
          status := .readError, phase := .idle }

/-- R104, R157, R271: a DECODE of a frame whose length field is odd, zero or above 56 takes four micro-steps, consumes four
bytes and answers FrameLengthMismatch, whatever follows (R273). -/
def Obligations.DecodeOfABadLengthReportsMismatch : Prop :=
  ∀ (s : State) (n : BitVec 4) (b0 h l : Byte) (rest : List Byte),
    n.toNat ≤ 13 → s.block.phase = .idle → s.block.rxq = b0 :: 0x4D#8 :: h :: l :: rest →
    2 * n.toNat + 6 ≤ s.block.rxq.length →
    ((h ++ l).toNat % 2 = 1 ∨ h ++ l = 0#16 ∨ 56 < (h ++ l).toNat) →
      ∃ k1 : Block, exec (.decode n) s = .next { s with block := k1 } ∧
        Block.run 4 k1 = .ok { s.block with
          rxq := rest, nreq := n, nval := 0#4, hold := h, len := h ++ l
          sum := b0.setWidth 16 + 0x4D#16 + h.setWidth 16 + l.setWidth 16
          status := .frameLengthMismatch, phase := .idle }

/-- R198 (e): a command frame fed back into the receive queue is no measurement frame: a `DECODE n` that finds its `2n + 6`
bytes answers FrameLengthMismatch after four of them. -/
def Obligations.EchoedCommandFrameIsRejected : Prop :=
  ∀ (s : State) (n : BitVec 4) (c : Command) (rest : List Byte), c ≠ .reset → n.toNat ≤ 13 → s.block.phase = .idle →
    s.block.rxq = frameOf c ++ rest → 2 * n.toNat + 6 ≤ s.block.rxq.length →
      ∃ k1 k2 : Block, exec (.decode n) s = .next { s with block := k1 } ∧ Block.run 4 k1 = .ok k2 ∧
        k2.phase = .idle ∧ k2.status = .frameLengthMismatch ∧ k2.rxq = (frameOf c).drop 4 ++ rest ∧
        k2.record = s.block.record

/-- R166, R215: a frame with a correct checksum of which one payload byte was changed, the checksum left as it was, is
answered SumError for every `n`. -/
def Obligations.ChangedPayloadByteReportsSumError : Prop :=
  ∀ (s : State) (n : BitVec 4) (fields fields' : List Word) (pre post : List Byte) (x y : Byte) (rest : List Byte),
    n.toNat ≤ 13 → fields.length ≤ 27 → s.block.phase = .idle →
    fieldBytes fields = pre ++ x :: post → fieldBytes fields' = pre ++ y :: post → x ≠ y →
    s.block.rxq = encode (.mframe fields' (sum16 (summedBytes fields))) ++ rest →
    2 * n.toNat + 6 ≤ s.block.rxq.length →
      ∃ k1 k2 : Block, exec (.decode n) s = .next { s with block := k1 } ∧
        Block.run (2 * fields.length + 6) k1 = .ok k2 ∧ k2.phase = .idle ∧ k2.status = .sumError ∧ k2.rxq = rest

/-- R78, R74: a byte that arrives before a micro-step on a queue that is not empty and one that arrives after it leave the same
block. -/
def Obligations.ArrivalCommutesWithMicroStep : Prop :=
  ∀ (k k' : Block) (b : Byte), k.rxq ≠ [] → k.rxq.length < Config.rxDepth → k.micro = .ok k' →
    (k.rxPush b).micro = .ok (k'.rxPush b)

/-! ### ENCODE and the frames on the wire -/

/-- R191 to R195: the five request words and the five frames; nothing but `TXBUF` and `TXVALID` changes (R190). -/
def Obligations.EncodeLoadsCommandFrame : Prop :=
  decode .opreq [0x30#8] = .ok (.encodeRead, []) ∧ decode .opreq [0x31#8] = .ok (.encodePassive, []) ∧
  decode .opreq [0x32#8] = .ok (.encodeActive, []) ∧ decode .opreq [0x33#8] = .ok (.encodeSleep, []) ∧
  decode .opreq [0x34#8] = .ok (.encodeWake, []) ∧
  ∀ s : State, s.block.phase = .idle →
    exec .encodeRead s = .next { s with block := { s.block with
      txbuf := #v[0x42#8, 0x4D#8, 0x00#8, 0x00#8, 0xE2#8, 0x01#8, 0x71#8], txvalid := true } } ∧
    exec .encodePassive s = .next { s with block := { s.block with
      txbuf := #v[0x42#8, 0x4D#8, 0x00#8, 0x00#8, 0xE1#8, 0x01#8, 0x70#8], txvalid := true } } ∧
    exec .encodeActive s = .next { s with block := { s.block with
      txbuf := #v[0x42#8, 0x4D#8, 0x00#8, 0x01#8, 0xE1#8, 0x01#8, 0x71#8], txvalid := true } } ∧
    exec .encodeSleep s = .next { s with block := { s.block with
      txbuf := #v[0x42#8, 0x4D#8, 0x00#8, 0x00#8, 0xE4#8, 0x01#8, 0x73#8], txvalid := true } } ∧
    exec .encodeWake s = .next { s with block := { s.block with
      txbuf := #v[0x42#8, 0x4D#8, 0x00#8, 0x01#8, 0xE4#8, 0x01#8, 0x74#8], txvalid := true } }

/-- R196, R197: the words `0x35` and `0x36` to `0x3F`, `ENCODE RESET` and the reserved operands, clear `TXVALID` and change
nothing else. -/
def Obligations.EncodeWithoutFrameClearsTxvalid : Prop :=
  ∀ (s : State) (x : BitVec 1) (y : BitVec 3), s.block.phase = .idle →
    decode .opreq [0x35#8] = .ok (.encodeReset, []) ∧
    decode .opreq [0x36#8 + x.setWidth 8] = .ok (.encodeRsvd67 x, []) ∧
    decode .opreq [0x38#8 + y.setWidth 8] = .ok (.encodeRsvd815 y, []) ∧
    exec .encodeReset s = .next { s with block := { s.block with txvalid := false } } ∧
    exec (.encodeRsvd67 x) s = .next { s with block := { s.block with txvalid := false } } ∧
    exec (.encodeRsvd815 y) s = .next { s with block := { s.block with txvalid := false } }

/-- R97 and R240: each command frame goes out whole, byte 0 first, and nothing but the wire changes. That the frame's row of
the opcode table stands for its transmission is log entry 11. -/
def Obligations.CommandFramesGoOutOnTheWire : Prop :=
  ∀ s : State,
    exec .cmdRead s = .next { s with
      txwire := s.txwire ++ [0x42#8, 0x4D#8, 0x00#8, 0x00#8, 0xE2#8, 0x01#8, 0x71#8] } ∧
    exec .cmdPassive s = .next { s with
      txwire := s.txwire ++ [0x42#8, 0x4D#8, 0x00#8, 0x00#8, 0xE1#8, 0x01#8, 0x70#8] } ∧
    exec .cmdActive s = .next { s with
      txwire := s.txwire ++ [0x42#8, 0x4D#8, 0x00#8, 0x01#8, 0xE1#8, 0x01#8, 0x71#8] } ∧
    exec .cmdSleep s = .next { s with
      txwire := s.txwire ++ [0x42#8, 0x4D#8, 0x00#8, 0x00#8, 0xE4#8, 0x01#8, 0x73#8] } ∧
    exec .cmdWake s = .next { s with
      txwire := s.txwire ++ [0x42#8, 0x4D#8, 0x00#8, 0x01#8, 0xE4#8, 0x01#8, 0x74#8] }

/-- R71, R75 (a), R91: a measurement frame that arrives is appended to the queue in order, as far as the queue has room, and
nothing else changes. That the frame's row of the opcode table stands for its arrival is log entry 12. -/
def Obligations.MeasurementFrameIsQueuedInOrder : Prop :=
  ∀ (s : State) (fields : List Word) (chk : Word),
    exec (.mframe fields chk) s = .next { s with block := { s.block with
      rxq := s.block.rxq ++ (([0x42#8, 0x4D#8] ++ beBytes (BitVec.ofNat 16 (2 * fields.length + 2)) ++
        fields.flatMap beBytes ++ beBytes chk).take (Config.rxDepth - s.block.rxq.length)) } }

/-- R71: `RX_PUSH(b)` is enabled in every state; it appends, or drops the byte when the queue is full. -/
def Obligations.ReceivedByteIsAppendedOrDropped : Prop :=
  ∀ (s : State) (b : Byte) (es : List Event), s.sched = .rxPush b :: es →
    (s.block.rxq.length < Config.rxDepth →
      step s = .next { s with sched := es, block := { s.block with rxq := s.block.rxq ++ [b] } }) ∧
    (Config.rxDepth ≤ s.block.rxq.length → step s = .next { s with sched := es })

/-! ### Arithmetic -/

/-- R210: `be16(h, l)` is `256*h + l`, and splitting inverts it both ways. -/
def Obligations.BigEndianIsABijection : Prop :=
  ∀ (h l : Byte) (v : Word), (be16 h l).toNat = 256 * h.toNat + l.toNat ∧ hiByte (be16 h l) = h ∧
    loByte (be16 h l) = l ∧ be16 (hiByte v) (loByte v) = v

/-- R211, R212: `sum16` is the sum of the bytes as numbers, modulo 65536. -/
def Obligations.ByteSumIsModulo65536 : Prop :=
  ∀ bytes : List Byte, (sum16 bytes).toNat = (bytes.map BitVec.toNat).sum % 65536

/-- R213: the byte sum does not depend on the order of the bytes. -/
def Obligations.ByteSumIsOrderIndependent : Prop :=
  ∀ xs ys : List Byte, xs.Perm ys → sum16 xs = sum16 ys

/-! ### Encoding -/

/-- The words of the opcode table, written out from 30_encoding.md R97 and R100, decode to their rows. -/
def Obligations.TableWordsDecode : Prop :=
  decode .opreq [0x10#8] = .ok (.skip, []) ∧ decode .opreq [0x2D#8] = .ok (.decode 13#4, []) ∧
  decode .opreq [0x32#8] = .ok (.encodeActive, []) ∧ decode .opreq [0x35#8] = .ok (.encodeReset, []) ∧
  decode .opreq [0x37#8] = .ok (.encodeRsvd67 1#1, []) ∧ decode .opreq [0x3D#8] = .ok (.encodeRsvd815 5#3, []) ∧
  decode .opreq [0x40#8] = .ok (.flush, []) ∧ decode .opreq [0x2E#8] = .error (.reservedOperand 0x2E#8) ∧
  decode .tx [0x42#8, 0x4D#8, 0x00#8, 0x01#8, 0xE4#8, 0x01#8, 0x74#8] = .ok (.cmdWake, []) ∧
  decode .rx [0x42#8, 0x4D#8, 0x00#8, 0x04#8, 0xE1#8, 0x00#8, 0x01#8, 0x74#8] =
    .ok (.mframe [0xE100#16] 0x0174#16, [])

/-- Decode of encode, for every well-formed instruction of every family and any bytes after it: no bit of an encoding is
dropped (R90 to R97, R100, R101). -/
def Obligations.DecodeOfEncodeIsIdentity : Prop :=
  ∀ (i : Instr) (rest : List Byte), i.wellFormed = true → decode i.channel (encode i ++ rest) = .ok (i, rest)

/-- Encode of decode: what the decoder accepts is a well-formed instruction of that channel, and its encoding is exactly the
bytes taken; so each word has one meaning, and reserved words none. -/
def Obligations.DecodedBytesAreTheEncoding : Prop :=
  ∀ (c : Channel) (bytes : List Byte) (i : Instr) (rest : List Byte), decode c bytes = .ok (i, rest) →
    i.wellFormed = true ∧ i.channel = c ∧ bytes = encode i ++ rest

/-! ### The step -/

/-- A step runs the decoded instruction: a request word on an idle block, from the program (given as a request or as a write to
`OPREQ`, R40) or from a session call; a command frame of a host write; a measurement frame at the head of a burst. What the step
adds is the removal of what was fetched, and the result of the write. That a host write of a command frame runs that frame's row
is the model's choice (log entries 3 and 11), and so is that a received frame arrives in one step (log entry 12). -/
def Obligations.StepRunsTheDecodedInstruction : Prop :=
  ∀ (s : State) (i : Instr) (es : List Event),
    (∀ w ps, s.sched = .host :: es → s.todo = [] → (s.program = .request w :: ps ∨ s.program = .writeReg 0 w :: ps) →
      s.block.phase = .idle → decode .opreq [w] = .ok (i, []) → step s = exec i { s with sched := es, program := ps }) ∧
    (∀ w acts, s.sched = .host :: es → s.todo = .request w :: acts → s.block.phase = .idle →
      decode .opreq [w] = .ok (i, []) → step s = exec i { s with sched := es, todo := acts }) ∧
    (∀ bytes ps, s.sched = .host :: es → s.todo = [] → s.program = .transmit bytes :: ps →
      decode .tx bytes = .ok (i, []) →
      step s = exec i { s with sched := es, program := ps, result := some (.written bytes.length) }) ∧
    (∀ bytes rest, s.sched = .rxBurst bytes :: es → decode .rx bytes = .ok (i, rest) →
      step s = exec i { s with sched := if rest = [] then es else .rxBurst rest :: es })

/-- The block's turn is its micro-step, whether the schedule names it or names nothing and a micro-step is enabled (R79 (a);
the default is log entry 2, that it brings the recurring events back is log entry 29). -/
def Obligations.StepRunsTheMicroStep : Prop :=
  ∀ (s : State) (k : Block), s.block.micro = .ok k →
    (∀ es, s.sched = .block :: es → step s = .next { s with sched := es, block := k }) ∧
    (s.sched = [] → s.block.microEnabled = true → step s = .next { s with sched := s.recurring, block := k })

/-- R73: while the block is busy a request waits: it is not lost, not refused, and nothing of the block changes. That the
instruction itself answers the state unchanged on a busy block, and that the host's turn is spent, is the model's reading of
R73 (log entry 20). -/
def Obligations.RequestWaitsWhileBusy : Prop :=
  ∀ (s : State) (es : List Event), s.block.phase ≠ .idle →
    (∀ i : Instr, i.channel = .opreq → exec i s = .next s) ∧
    (∀ w ps, s.sched = .host :: es → s.todo = [] → (s.program = .request w :: ps ∨ s.program = .writeReg 0 w :: ps) →
      step s = .next { s with sched := es }) ∧
    (∀ w acts, s.sched = .host :: es → s.todo = .request w :: acts → step s = .next { s with sched := es })

/-- R106: a reserved word is taken and ignored, but that a reserved ENCODE word clears `TXVALID` (R197). The spec also lets a
model refuse these words; this one follows the effect (log entry 7). -/
def Obligations.ReservedWordsAreIgnored : Prop :=
  ∀ (s : State) (op arg : BitVec 4) (ps : List HostAct) (es : List Event),
    s.sched = .host :: es → s.todo = [] →
    (s.program = .request (op ++ arg) :: ps ∨ s.program = .writeReg 0 (op ++ arg) :: ps) → s.block.phase = .idle →
    (op.toNat = 0 ∨ 5 ≤ op.toNat ∨ (op.toNat = 1 ∨ op.toNat = 4) ∧ arg ≠ 0#4 ∨ op.toNat = 2 ∧ 14 ≤ arg.toNat →
      step s = .next { s with sched := es, program := ps }) ∧
    (op.toNat = 3 → 6 ≤ arg.toNat →
      step s = .next { s with sched := es, program := ps, block := { s.block with txvalid := false } })

/-! ### Whole-machine rules -/

/-- R20, R41, R161, R214: the invariant holds at reset. -/
def Obligations.InvariantHoldsAtReset : Prop := State.reset.Inv

/-- R20, R41: registers keep legal values; R161, R214, R23: while a DECODE runs, the bytes its request saw and has not consumed
are queued, `SUM` is bounded by the bytes consumed, `NVAL` counts the entries written. Every step keeps all of it. -/
def Obligations.InvariantIsKeptByEveryStep : Prop :=
  ∀ s t : State, s.Inv → step s = .next t → t.Inv

/-- In a state of legal values no step stops: every request, frame, session act and event has an effect. -/
def Obligations.NoStepStops : Prop := ∀ s : State, s.block.Legal → ∃ t : State, step s = .next t

/-- R161 (a) to (c): under the invariant a DECODE waits for a byte only in the payload or the checksum, with every wanted field
of the frame already stored, and only when the frame is longer than the `2n + 6` bytes the request saw. -/
def Obligations.TimeoutFallsOnlyInTheTail : Prop :=
  ∀ k : Block, k.Legal → k.Parsing → k.waiting = true →
    (k.phase = .pay ∨ k.phase = .chkh ∨ k.phase = .chkl) ∧
      k.nval.toNat = min ((k.len.toNat - 2) / 2) k.nreq.toNat ∧ 2 * k.nreq.toNat + 6 < 4 + k.len.toNat

/-- R214: under the invariant the sum of a running DECODE never reaches the wrap, and no command frame's sum is above
`0x0174`. -/
def Obligations.SumNeverWrapsDuringDecode : Prop :=
  (∀ k : Block, k.Legal → k.Parsing → k.phase.decoding = true → k.sum.toNat ≤ 14790) ∧
  ∀ c : Command, (sum16 ((frameOf c).take 5)).toNat ≤ 0x0174

/-- R79 (b), (c), R277: an operation in progress ends, from every legal state. A DECODE ends whatever is scheduled and whatever
recurs, bytes that never stop arriving among it; a SKIP ends if only finitely many bytes arrive, that is, if no recurring
event brings any. With nothing scheduled and nothing recurring, one step for each queued byte and one more are enough. The
fairness of R79 is in the default transition, which comes before each round of the recurring events (log entries 2 and 29). -/
def Obligations.OperationsEnd : Prop :=
  ∀ s : State, s.block.Legal → s.block.phase ≠ .idle →
    (s.sched = [] → s.recurring = [] →
      ∃ (n : Nat) (t : State), n ≤ s.block.rxq.length + 1 ∧ Host.Core.run Sys2Proof.core n s = .next t ∧
        t.block.phase = .idle) ∧
    ((s.block.phase = .skip → ∀ e ∈ s.recurring, e.arrives = false) →
      ∃ (n : Nat) (t : State), Host.Core.run Sys2Proof.core n s = .next t ∧ t.block.phase = .idle)

/-- R24, R163: but for `RESET`, a step that changes `STATUS` either ends a DECODE in progress, by a micro-step or a timeout, or is
the host's turn with a DECODE request, a word `0x20` to `0x2D`, that finds too few bytes; the block is idle after it. -/
def Obligations.StatusIsWrittenOnlyWhenADecodeEnds : Prop :=
  ∀ s t : State, s.sched.head? ≠ some .reset → step s = .next t → t.block.status ≠ s.block.status →
    t.block.phase = .idle ∧
      (s.block.phase.decoding = true ∧ (s.nextEvent = .block ∨ s.nextEvent = .rxTimeout) ∨
        s.block.phase = .idle ∧ t.block.status = .noData ∧
          ∃ w : Byte, s.requests w ∧ 0x20 ≤ w.toNat ∧ w.toNat ≤ 0x2D)

/-- R22: but for `RESET`, `REC` changes only by a micro-step in the payload phase; one entry at a time, and only a wanted
one. -/
def Obligations.RecordIsWrittenOnlyInThePayloadPhase : Prop :=
  ∀ s t : State, s.sched.head? ≠ some .reset → step s = .next t → t.block.record ≠ s.block.record →
    s.nextEvent = .block ∧ s.block.phase = .pay ∧ s.block.pos.toNat / 2 < s.block.nreq.toNat ∧
      ∀ (j : Nat) (hj : j < 13), j ≠ s.block.pos.toNat / 2 → t.block.record[j] = s.block.record[j]

/-- R26, R32: but for `RESET`, `TXBUF` and `TXVALID` change only by an ENCODE, a request word `0x30` to `0x3F` that the host gives in
its turn, on an idle block; that step changes nothing else of the block (R198 (b)). -/
def Obligations.TransmitBufferIsWrittenOnlyByEncode : Prop :=
  ∀ s t : State, s.sched.head? ≠ some .reset → step s = .next t →
    (t.block.txbuf ≠ s.block.txbuf ∨ t.block.txvalid ≠ s.block.txvalid) →
      s.block.phase = .idle ∧ t.block = { s.block with txbuf := t.block.txbuf, txvalid := t.block.txvalid } ∧
      ∃ w : Byte, s.requests w ∧ 0x30 ≤ w.toNat ∧ w.toNat ≤ 0x3F

/-- R75 (a): the queue is first-in first-out: in any step it stays, grows at its tail by received bytes, loses its head to a
micro-step of the running operation, or is emptied by a FLUSH, the host's request word `0x40` on an idle block, or by
`RESET`. -/
def Obligations.QueueIsFirstInFirstOut : Prop :=
  ∀ s t : State, step s = .next t →
    t.block.rxq = s.block.rxq ∨
    (s.nextEvent.arrives = true ∧ ∃ arrived : List Byte, t.block.rxq = s.block.rxq ++ arrived) ∨
    (s.nextEvent = .block ∧ s.block.phase ≠ .idle ∧ ∃ b : Byte, s.block.rxq = b :: t.block.rxq) ∨
    (t.block.rxq = [] ∧ (s.block.phase = .idle ∧ s.requests 0x40#8 ∨ s.nextEvent = .reset))

/-! ### The host's registers -/

/-- R40, R25, R270: the register map; `STATUS` reads one of the codes 0 to 4, never 5 to 7. `AVAIL` is stated where 16 bits hold the count (beyond it: log entry 18). -/
def Obligations.RegisterMapReads : Prop :=
  ∀ k : Block,
    k.readReg 0x01 = some (match k.status with
      | .ok => 0#16 | .noData => 1#16 | .readError => 2#16 | .frameLengthMismatch => 3#16 | .sumError => 4#16) ∧
    (∃ f : Word, k.readReg 0x02 = some f ∧
      f.toNat = (if k.phase = .idle then 0 else 1) + (if k.txvalid = true then 2 else 0)) ∧
    k.readReg 0x03 = some (k.nval.setWidth 16) ∧ k.readReg 0x04 = some k.len ∧ k.readReg 0x05 = some k.sum ∧
    (k.rxq.length < 65536 → ∃ a : Word, k.readReg 0x06 = some a ∧ a.toNat = k.rxq.length) ∧
    k.readReg 0x07 = some (match k.phase with
      | .idle => 0#16 | .skip => 1#16 | .sig0 => 2#16 | .sig1 => 3#16 | .lenh => 4#16 | .lenl => 5#16 | .pay => 6#16
      | .chkh => 7#16 | .chkl => 8#16) ∧
    (∀ (j : Nat) (hj : j < 13), k.readReg (0x10 + j) = some k.record[j]) ∧
    (∀ (i : Nat) (hi : i < 7), k.readReg (0x20 + i) = some (k.txbuf[i].setWidth 16)) ∧
    (∀ n : Nat, n = 0 ∨ 0x07 < n ∧ n < 0x10 ∨ 0x1C < n ∧ n < 0x20 ∨ 0x26 < n → k.readReg n = none)

/-- R40: a host access never changes the block: a read returns the register (any value where none is listed), a write to any
number but `OPREQ` is ignored. -/
def Obligations.HostAccessHasNoSideEffect : Prop :=
  ∀ (s : State) (ps : List HostAct) (es : List Event) (n : Nat), s.sched = .host :: es → s.todo = [] →
    (∀ v : Word, s.program = .readReg n :: ps → s.block.readReg n = some v →
      step s = .next { s with sched := es, program := ps, rdata := v }) ∧
    (s.program = .readReg n :: ps → s.block.readReg n = none →
      ∃ v : Word, step s = .next { s with sched := es, program := ps, rdata := v, freeCount := s.freeCount + 1 }) ∧
    (∀ w : Byte, s.program = .writeReg n w :: ps → n ≠ 0 → step s = .next { s with sched := es, program := ps })

/-! ### The session -/

/-- R241: the mode update of each command. -/
def Obligations.ModeUpdateFollowsTheTable : Prop :=
  ∀ (s : State) (c : Command) (acts : List SessionAct) (es : List Event),
    s.sched = .host :: es → s.todo = .update c :: acts →
      ∃ e : Session, step s = .next { s with sched := es, todo := acts, session := e } ∧
        e = { s.session with modeActive := e.modeActive, modeSleep := e.modeSleep } ∧
        e.modeActive = (match c with
          | .readData => s.session.modeActive | .setPassive => .no | .setActive => .yes | .sleep => s.session.modeActive
          | .wake => .yes | .reset => .yes) ∧
        e.modeSleep = (match c with
          | .readData => s.session.modeSleep | .setPassive => s.session.modeSleep | .setActive => s.session.modeSleep
          | .sleep => .yes | .wake => .no | .reset => .no)

/-- R246: a short write of the session ends the call with `false`; the beliefs are unchanged, and the bytes that went out stay
out. R248: a plain write of the host moves the first `m` of its bytes and answers how many it moved, short or whole; the
beliefs are unchanged too. That the count is held in `result` is the model's choice (log entry 3). -/
def Obligations.ShortWriteFailsAndKeepsBeliefs : Prop :=
  ∀ (s : State) (m : Nat) (es : List Event), s.sched = .hostWrite m :: es →
    (∀ (start count : Nat) (acts : List SessionAct), s.todo = .write start count :: acts → start + count ≤ 7 → m < count →
      step s = .next { s with
        sched := es, todo := [], result := some (.truth false)
        txwire := s.txwire ++ ((s.block.txbuf.toList.drop start).take m) }) ∧
    (∀ (bytes : List Byte) (ps : List HostAct), s.todo = [] → s.program = .transmit bytes :: ps →
      step s = .next { s with
        sched := es, program := ps, result := some (.written (min m bytes.length)), txwire := s.txwire ++ bytes.take m })

/-- R233, R234: without a transport every command, and without a reset line the reset command, returns `false` and changes
nothing. -/
def Obligations.CommandWithoutMeansReturnsFalse : Prop :=
  ∀ (s : State) (c : Command) (grace : Nat) (ps : List HostAct) (es : List Event),
    s.sched = .host :: .host :: es → s.todo = [] → s.program = .sendCommand c grace :: ps →
    (s.session.attached = false ∨ c = .reset ∧ s.session.resetPin = none) →
      Host.Core.run Sys2Proof.core 2 s =
        .next { s with sched := es, program := ps, result := some (.truth false) }

/-- R234: reset through its line: pulse, flush, {active, awake}, both flags cleared, the grace wait if there is one, whose
result is ignored, `true`. -/
def Obligations.ResetLinePulsesAndFlushes : Prop :=
  ∀ (s : State) (p : Byte) (grace : Nat) (answer : List Event) (q : List Byte) (ok : Bool) (ps : List HostAct)
    (es : List Event), GraceWait grace [] s.waitOk answer q ok →
    s.sched = List.replicate 6 .host ++ answer ++ .host :: es → s.todo = [] → s.program = .sendCommand .reset grace :: ps →
    s.block.phase = .idle → s.session.attached = true → s.session.resetPin = some p →
      Host.Core.run Sys2Proof.core (7 + answer.length) s = .next { s with
        sched := es, program := ps, waitOk := ok, result := some (.truth true)
        pins := s.pins ++ [⟨p, Config.resetAssertLevel⟩, ⟨p, Config.resetAssertLevel.flip⟩]
        block := { s.block with rxq := q }
        session := { s.session with
          modeActive := .yes, modeSleep := .no, hasReceivedData := false, hasSentCommand := false } }

/-- R235: sleep and wake through the sleep line: the line is driven, the modes follow, `hasSentCommand` does not, and the block is
not used; wake then takes its grace wait if there is one, whose result is ignored. -/
def Obligations.SleepLineReplacesTheFrame : Prop :=
  ∀ (s : State) (p : Byte) (grace : Nat) (answer : List Event) (q : List Byte) (ok : Bool) (ps : List HostAct)
    (es : List Event), s.todo = [] → s.session.attached = true → s.session.sleepPin = some p →
      (s.sched = List.replicate 4 .host ++ es → s.program = .sendCommand .sleep grace :: ps →
        Host.Core.run Sys2Proof.core 4 s = .next { s with
          sched := es, program := ps, result := some (.truth true), pins := s.pins ++ [⟨p, Config.sleepLevel⟩]
          session := { s.session with modeSleep := .yes } }) ∧
      (GraceWait grace s.block.rxq s.waitOk answer q ok →
        s.sched = List.replicate 3 .host ++ answer ++ .host :: es → s.program = .sendCommand .wake grace :: ps →
        Host.Core.run Sys2Proof.core (4 + answer.length) s = .next { s with
          sched := es, program := ps, waitOk := ok, result := some (.truth true)
          pins := s.pins ++ [⟨p, Config.sleepLevel.flip⟩], block := { s.block with rxq := q }
          session := { s.session with modeActive := .yes, modeSleep := .no } })

/-- R236, R237, R238, R239, R242: a command with an acknowledgement (set-passive-mode; sleep and wake without a sleep line), to
which none comes. After three turns it is encoded and five bytes are written, the queue as before; after four the queue is
flushed; after five the two checksum bytes are written; then the wait for the acknowledgement is given up, wake takes its grace
wait if there is one, whose result is ignored, and with the modes updated the call returns `true`. The wait for the acknowledgement
is one for `ACK_BYTES` bytes (R245). That the updates follow the waits is log entry 14. -/
def Obligations.AcknowledgedCommandIsSent : Prop :=
  ∀ (s : State) (c : Command) (grace : Nat) (answer : List Event) (q : List Byte) (ok : Bool) (ps : List HostAct)
    (es : List Event), GraceWait (if c = .wake then grace else 0) [] false answer q ok →
    s.sched = List.replicate 5 .host ++ [.waitExpires, .host] ++ answer ++ List.replicate 3 .host ++ es → s.todo = [] →
    s.program = .sendCommand c grace :: ps → s.block.phase = .idle → s.session.attached = true →
    (c = .setPassive ∨ (c = .sleep ∨ c = .wake) ∧ s.session.sleepPin = none) →
      ∃ (tx : Vector Byte 7) (t3 t4 t5 : State), tx.toList = frameOf c ∧
        Host.Core.run Sys2Proof.core 3 s = .next t3 ∧ t3.txwire = s.txwire ++ (frameOf c).take 5 ∧
        t3.block = { s.block with txbuf := tx, txvalid := true } ∧ t3.session = s.session ∧
        Host.Core.run Sys2Proof.core 4 s = .next t4 ∧ t4.txwire = s.txwire ++ (frameOf c).take 5 ∧
        t4.block = { s.block with rxq := [], txbuf := tx, txvalid := true } ∧ t4.session = s.session ∧
        Host.Core.run Sys2Proof.core 5 s = .next t5 ∧ t5.txwire = s.txwire ++ frameOf c ∧ t5.block = t4.block ∧
        t5.session = s.session ∧ (∃ acts, t5.todo = .wait Config.ackBytes false :: .dropAck :: acts) ∧
        Host.Core.run Sys2Proof.core (10 + answer.length) s = .next { s with
          sched := es, program := ps, waitOk := ok, result := some (.truth true)
          txwire := s.txwire ++ frameOf c
          block := { s.block with rxq := q, txbuf := tx, txvalid := true }
          session := { s.session.afterCommand c with hasSentCommand := true } }

/-- R236, R237, R242: read-data and set-active-mode: encoded, seven bytes written, nothing flushed, nothing awaited. -/
def Obligations.UnacknowledgedCommandIsSent : Prop :=
  ∀ (s : State) (c : Command) (grace : Nat) (ps : List HostAct) (es : List Event),
    s.sched = List.replicate 7 .host ++ es → s.todo = [] → s.program = .sendCommand c grace :: ps →
    s.block.phase = .idle → s.session.attached = true → (c = .readData ∨ c = .setActive) →
      ∃ tx : Vector Byte 7, tx.toList = frameOf c ∧
        Host.Core.run Sys2Proof.core 7 s = .next { s with
          sched := es, program := ps, result := some (.truth true)
          txwire := s.txwire ++ frameOf c
          block := { s.block with txbuf := tx, txvalid := true }
          session := { s.session.afterCommand c with hasSentCommand := true } }

/-- R243, R247, R270: reading without a transport returns NotInitialized, which is code 5 and no code of the block, and does not
use the block; with one it requests SKIP, waits
until the block is idle, requests `DECODE n`, waits again, and returns `STATUS`, noting a measurement when it is OK. -/
def Obligations.ReadMeasurementReturnsTheStatus : Prop :=
  ∀ (s : State) (es : List Event), s.sched = .host :: es →
    (∀ (n : Fin 14) ps, s.todo = [] → s.program = .readMeasurement n :: ps → s.session.attached = true →
      step s = .next { s with
        sched := es, program := ps
        todo := [.request 0x10#8, .await, .request (0x20#8 + BitVec.ofNat 8 n), .await, .finishRead] }) ∧
    (∀ acts, s.todo = .await :: acts →
      step s = .next { s with sched := es, todo := if s.block.phase = .idle then acts else s.todo }) ∧
    (∀ n ps, s.todo = [] → s.program = .readMeasurement n :: ps → s.session.attached = false →
      step s = .next { s with sched := es, program := ps, result := some .notInitialized } ∧
        CallResult.notInitialized.code = some 5#3 ∧ ∀ c : Status, (CallResult.status c).code ≠ some 5#3) ∧
    (∀ acts, s.todo = .finishRead :: acts → s.block.status = .ok →
      step s = .next { s with
        sched := es, todo := [], result := some (.status .ok)
        session := { s.session with hasReceivedData := true } }) ∧
    (∀ acts, s.todo = .finishRead :: acts → s.block.status ≠ .ok →
      step s = .next { s with sched := es, todo := [], result := some (.status s.block.status) })

/-- R245: a bounded wait succeeds as soon as enough bytes are queued, fails at once when its duration is 0, and otherwise
fails only when its time runs out while they are not. It consumes nothing. `waitForData(d)` is such a call for one byte and
`waitForAck(d)` for `ACK_BYTES`; each returns the truth of its wait: `true` on enough bytes, `false` at once for `d = 0` without
them, and otherwise `false` when, after any number of polls, its time runs out. -/
def Obligations.BoundedWaitAnswersAvailability : Prop :=
  (∀ (s : State) (need : Nat) (atOnce : Bool) (acts : List SessionAct) (es : List Event),
    s.todo = .wait need atOnce :: acts →
    (s.sched = .host :: es → need ≤ s.block.rxq.length →
      step s = .next { s with sched := es, todo := acts, waitOk := true }) ∧
    (s.sched = .host :: es → s.block.rxq.length < need → atOnce = true →
      step s = .next { s with sched := es, todo := acts, waitOk := false }) ∧
    (s.sched = .host :: es → s.block.rxq.length < need → atOnce = false → step s = .next { s with sched := es }) ∧
    (s.sched = .waitExpires :: es → s.block.rxq.length < need →
      step s = .next { s with sched := es, todo := acts, waitOk := false }) ∧
    (s.sched = .waitExpires :: es → need ≤ s.block.rxq.length → step s = .next { s with sched := es })) ∧
  ∀ (s : State) (d need : Nat) (ps : List HostAct) (es : List Event), s.todo = [] →
    (s.program = .waitForData d :: ps ∧ need = 1 ∨ s.program = .waitForAck d :: ps ∧ need = Config.ackBytes) →
    (s.sched = List.replicate 3 .host ++ es → need ≤ s.block.rxq.length →
      Host.Core.run Sys2Proof.core 3 s =
        .next { s with sched := es, program := ps, waitOk := true, result := some (.truth true) }) ∧
    (s.sched = List.replicate 3 .host ++ es → d = 0 → s.block.rxq.length < need →
      Host.Core.run Sys2Proof.core 3 s =
        .next { s with sched := es, program := ps, waitOk := false, result := some (.truth false) }) ∧
    (∀ polls : Nat, s.sched = .host :: List.replicate polls .host ++ [.waitExpires, .host] ++ es → 0 < d →
      s.block.rxq.length < need →
      Host.Core.run Sys2Proof.core (polls + 3) s =
        .next { s with sched := es, program := ps, waitOk := false, result := some (.truth false) })

/-- R238: when the wait for an acknowledgement succeeded, one frame is discarded by `DROPFRAME` (`SKIP`, then `DECODE 0`, each to its
end, R109); when it did not, nothing is done. -/
def Obligations.AcknowledgementIsDroppedAsOneFrame : Prop :=
  ∀ (s : State) (acts : List SessionAct) (es : List Event), s.sched = .host :: es → s.todo = .dropAck :: acts →
    (s.waitOk = true → step s = .next { s with
      sched := es, todo := .request 0x10#8 :: .await :: .request 0x20#8 :: .await :: acts }) ∧
    (s.waitOk = false → step s = .next { s with sched := es, todo := acts })

/-- R231, C8, C10: each of the session's beliefs has its writers and no other, and they write in the host's turn. A mode changes
only in the mode update of a command, so nothing received ever changes one; `hasReceivedData` changes only when the flags are
cleared or at the end of a read that answers OK, `hasSentCommand` only when the flags are cleared or a command is noted as
sent. The configuration (R230) never changes. -/
def Obligations.BeliefsChangeOnlyByTheSession : Prop :=
  ∀ s t : State, step s = .next t →
    (t.session ≠ s.session → s.nextEvent = .host) ∧
    (t.session.modeActive ≠ s.session.modeActive ∨ t.session.modeSleep ≠ s.session.modeSleep →
      ∃ c acts, s.todo = .update c :: acts) ∧
    (t.session.hasReceivedData ≠ s.session.hasReceivedData →
      ∃ acts, s.todo = .clearFlags :: acts ∨ s.todo = .finishRead :: acts ∧ s.block.status = .ok) ∧
    (t.session.hasSentCommand ≠ s.session.hasSentCommand →
      ∃ acts, s.todo = .clearFlags :: acts ∨ s.todo = .markSent :: acts) ∧
    t.session.attached = s.session.attached ∧ t.session.resetPin = s.session.resetPin ∧
      t.session.sleepPin = s.session.sleepPin

/-- R244: `isWorking()` is the conjunction of the two flags. -/
def Obligations.IsWorkingNeedsBothFlags : Prop :=
  ∀ (s : State) (ps : List HostAct) (es : List Event), s.sched = .host :: es → s.todo = [] →
    s.program = .isWorking :: ps →
      step s = .next { s with
        sched := es, program := ps
        result := some (.truth (s.session.hasSentCommand && s.session.hasReceivedData)) }

/-! ### Endless arrivals -/

/-- R79 (c): bytes that are no signature byte and keep arriving, at least one for each that SKIP removes, keep a SKIP running for
ever: after any number of steps it still runs. That the arrivals recur after each transition of the block is log entry 29. -/
def Obligations.EndlessArrivalsKeepASkipRunning : Prop :=
  ∀ (s : State) (bytes : List Byte), s.block.phase = .skip → s.block.rxq ≠ [] → (∀ b ∈ s.block.rxq, b ≠ 0x42#8) →
    s.sched = [] → s.recurring = bytes.map Event.rxPush → bytes ≠ [] → (∀ b ∈ bytes, b ≠ 0x42#8) →
      ∀ n : Nat, ∃ t : State, Host.Core.run Sys2Proof.core n s = .next t ∧ t.block.phase = .skip
end

