-- ==== Sys2Proof/Laws/State.lean ====
section
/-! SUPPORT. One lemma a field for each named update of the state, true by rfl: the block's updates, then the whole
state's. -/

namespace Sys2Proof.Machine

variable (k : Block) (s : State)

/-! ### `Block.raise` -/
@[simp] theorem raise_rxq (c) : (k.raise c).rxq = k.rxq := rfl
@[simp] theorem raise_phase (c) : (k.raise c).phase = .idle := rfl
@[simp] theorem raise_nreq (c) : (k.raise c).nreq = k.nreq := rfl
@[simp] theorem raise_pos (c) : (k.raise c).pos = k.pos := rfl
@[simp] theorem raise_hold (c) : (k.raise c).hold = k.hold := rfl
@[simp] theorem raise_len (c) : (k.raise c).len = k.len := rfl
@[simp] theorem raise_sum (c) : (k.raise c).sum = k.sum := rfl
@[simp] theorem raise_record (c) : (k.raise c).record = k.record := rfl
@[simp] theorem raise_nval (c) : (k.raise c).nval = k.nval := rfl
@[simp] theorem raise_status (c) : (k.raise c).status = c := rfl
@[simp] theorem raise_txbuf (c) : (k.raise c).txbuf = k.txbuf := rfl
@[simp] theorem raise_txvalid (c) : (k.raise c).txvalid = k.txvalid := rfl

/-! ### `Block.addSum` -/
@[simp] theorem addSum_rxq (b) : (k.addSum b).rxq = k.rxq := rfl
@[simp] theorem addSum_phase (b) : (k.addSum b).phase = k.phase := rfl
@[simp] theorem addSum_nreq (b) : (k.addSum b).nreq = k.nreq := rfl
@[simp] theorem addSum_pos (b) : (k.addSum b).pos = k.pos := rfl
@[simp] theorem addSum_hold (b) : (k.addSum b).hold = k.hold := rfl
@[simp] theorem addSum_len (b) : (k.addSum b).len = k.len := rfl
@[simp] theorem addSum_sum (b) : (k.addSum b).sum = addByte k.sum b := rfl
@[simp] theorem addSum_record (b) : (k.addSum b).record = k.record := rfl
@[simp] theorem addSum_nval (b) : (k.addSum b).nval = k.nval := rfl
@[simp] theorem addSum_status (b) : (k.addSum b).status = k.status := rfl
@[simp] theorem addSum_txbuf (b) : (k.addSum b).txbuf = k.txbuf := rfl
@[simp] theorem addSum_txvalid (b) : (k.addSum b).txvalid = k.txvalid := rfl

/-! ### `advancePayload` -/
@[simp] theorem advancePayload_rxq (b) : (advancePayload b k).rxq = k.rxq := rfl
@[simp] theorem advancePayload_phase (b) :
    (advancePayload b k).phase = if k.atLastPayloadByte then .chkh else .pay := rfl
@[simp] theorem advancePayload_nreq (b) : (advancePayload b k).nreq = k.nreq := rfl
@[simp] theorem advancePayload_pos (b) : (advancePayload b k).pos = k.pos + 1#6 := rfl
@[simp] theorem advancePayload_hold (b) : (advancePayload b k).hold = k.hold := rfl
@[simp] theorem advancePayload_len (b) : (advancePayload b k).len = k.len := rfl
@[simp] theorem advancePayload_sum (b) : (advancePayload b k).sum = addByte k.sum b := rfl
@[simp] theorem advancePayload_record (b) : (advancePayload b k).record = k.record := rfl
@[simp] theorem advancePayload_nval (b) : (advancePayload b k).nval = k.nval := rfl
@[simp] theorem advancePayload_status (b) : (advancePayload b k).status = k.status := rfl
@[simp] theorem advancePayload_txbuf (b) : (advancePayload b k).txbuf = k.txbuf := rfl
@[simp] theorem advancePayload_txvalid (b) : (advancePayload b k).txvalid = k.txvalid := rfl

/-! ### `Block.rxPush`, `Block.rxPushAll`, `Block.flushQueue`: the queue, and everything else unchanged -/
@[simp] theorem rxPush_rxq (b) : (k.rxPush b).rxq = k.rxq.push b := rfl
theorem rxPush_frame (b) : { k.rxPush b with rxq := k.rxq } = k := rfl
@[simp] theorem rxPushAll_rxq (bs) : (k.rxPushAll bs).rxq = k.rxq.pushAll bs := rfl
theorem rxPushAll_frame (bs) : { k.rxPushAll bs with rxq := k.rxq } = k := rfl
@[simp] theorem flushQueue_rxq : k.flushQueue.rxq = [] := rfl
theorem flushQueue_frame : { k.flushQueue with rxq := k.rxq } = k := rfl

/-! ### `Block.loadTx`, `Block.dropTx`: the transmit registers, and everything else unchanged -/
@[simp] theorem loadTx_txvalid (c0 c1 c2) : (k.loadTx c0 c1 c2).txvalid = true := rfl
theorem loadTx_frame (c0 c1 c2) : { k.loadTx c0 c1 c2 with txbuf := k.txbuf, txvalid := k.txvalid } = k := rfl
@[simp] theorem dropTx_txvalid : k.dropTx.txvalid = false := rfl
theorem dropTx_frame : { k.dropTx with txvalid := k.txvalid } = k := rfl

/-! ### `Block.afterReset` -/
@[simp] theorem afterReset_rxq (c) : (Block.afterReset c).rxq = [] := rfl
@[simp] theorem afterReset_phase (c) : (Block.afterReset c).phase = .idle := rfl
@[simp] theorem afterReset_txvalid (c) : (Block.afterReset c).txvalid = false := rfl

/-! ### `State.mapBlock` -/
@[simp] theorem mapBlock_block (f) : (s.mapBlock f).block = f s.block := rfl
@[simp] theorem mapBlock_txwire (f) : (s.mapBlock f).txwire = s.txwire := rfl
@[simp] theorem mapBlock_pins (f) : (s.mapBlock f).pins = s.pins := rfl
@[simp] theorem mapBlock_session (f) : (s.mapBlock f).session = s.session := rfl
@[simp] theorem mapBlock_todo (f) : (s.mapBlock f).todo = s.todo := rfl
@[simp] theorem mapBlock_waitOk (f) : (s.mapBlock f).waitOk = s.waitOk := rfl
@[simp] theorem mapBlock_result (f) : (s.mapBlock f).result = s.result := rfl
@[simp] theorem mapBlock_rdata (f) : (s.mapBlock f).rdata = s.rdata := rfl
@[simp] theorem mapBlock_program (f) : (s.mapBlock f).program = s.program := rfl
@[simp] theorem mapBlock_sched (f) : (s.mapBlock f).sched = s.sched := rfl
@[simp] theorem mapBlock_recurring (f) : (s.mapBlock f).recurring = s.recurring := rfl
@[simp] theorem mapBlock_freeCount (f) : (s.mapBlock f).freeCount = s.freeCount := rfl

/-! ### `State.transmit` -/
@[simp] theorem transmit_txwire (bs) : (s.transmit bs).txwire = s.txwire ++ bs := rfl
@[simp] theorem transmit_block (bs) : (s.transmit bs).block = s.block := rfl
@[simp] theorem transmit_pins (bs) : (s.transmit bs).pins = s.pins := rfl
@[simp] theorem transmit_session (bs) : (s.transmit bs).session = s.session := rfl
@[simp] theorem transmit_todo (bs) : (s.transmit bs).todo = s.todo := rfl
@[simp] theorem transmit_waitOk (bs) : (s.transmit bs).waitOk = s.waitOk := rfl
@[simp] theorem transmit_result (bs) : (s.transmit bs).result = s.result := rfl
@[simp] theorem transmit_rdata (bs) : (s.transmit bs).rdata = s.rdata := rfl
@[simp] theorem transmit_program (bs) : (s.transmit bs).program = s.program := rfl
@[simp] theorem transmit_sched (bs) : (s.transmit bs).sched = s.sched := rfl
@[simp] theorem transmit_recurring (bs) : (s.transmit bs).recurring = s.recurring := rfl
@[simp] theorem transmit_freeCount (bs) : (s.transmit bs).freeCount = s.freeCount := rfl

/-! ### The numeric codes of statuses -/
@[simp] theorem code_notInitialized : CallResult.notInitialized.code = some 5#3 := rfl
@[simp] theorem code_status (c) : (CallResult.status c).code = some c.code := rfl
/-- The block's codes end at 4 (R270). -/
theorem status_code_le (c : Status) : c.code.toNat ≤ 4 := by cases c <;> decide

/-! ### `State.resetBlock`: the block and the counter, and everything else unchanged -/
@[simp] theorem resetBlock_block : s.resetBlock.block = Block.afterReset s.freeCount := rfl
@[simp] theorem resetBlock_freeCount : s.resetBlock.freeCount = s.freeCount + 1 := rfl
theorem resetBlock_frame : { s.resetBlock with block := s.block, freeCount := s.freeCount } = s := rfl

/-! ### `State.readPort` never changes the block, the wire, the session or what comes next -/
@[simp] theorem readPort_block (n) : (s.readPort n).block = s.block := by
  unfold State.readPort; split <;> rfl
theorem readPort_frame (n) :
    { s.readPort n with rdata := s.rdata, freeCount := s.freeCount } = s := by
  unfold State.readPort; split <;> rfl

end Sys2Proof.Machine
end

