-- ==== Sys2Proof/Laws/Memory.lean ====
section
/-! SUPPORT. The receive queue: what a push does, and that every operation on the queue keeps its canonical form. -/

namespace Sys2Proof.Machine

theorem rxDepth_ge : 32 ≤ Config.rxDepth := by simp [Config.rxDepth]

theorem push_of_room {m : Memory} (b : Byte) (h : m.length < Config.rxDepth) : m.push b = m ++ [b] := by
  simp [Memory.push, h]

theorem push_of_full {m : Memory} (b : Byte) (h : Config.rxDepth ≤ m.length) : m.push b = m := by
  simp [Memory.push, Nat.not_lt.mpr h]

@[simp] theorem pushAll_nil (m : Memory) : m.pushAll [] = m := rfl
@[simp] theorem pushAll_cons (m : Memory) (b : Byte) (bs : List Byte) :
    m.pushAll (b :: bs) = (m.push b).pushAll bs := rfl

/-- The queue never loses or reorders what it held: a push only appends. -/
theorem pushAll_extends (m : Memory) (bs : List Byte) : ∃ t, m.pushAll bs = m ++ t := by
  induction bs generalizing m with
  | nil => exact ⟨[], by simp⟩
  | cons b bs ih =>
    obtain ⟨t, ht⟩ := ih (m.push b)
    by_cases h : m.length < Config.rxDepth
    · rw [push_of_room b h] at ht
      exact ⟨b :: t, by simp [push_of_room b h, ht]⟩
    · rw [push_of_full b (Nat.not_lt.mp h)] at ht
      exact ⟨t, by simp [push_of_full b (Nat.not_lt.mp h), ht]⟩

theorem push_wf {m : Memory} (b : Byte) (h : m.wf) : (m.push b).wf := by
  by_cases hr : m.length < Config.rxDepth
  · simp only [Memory.wf, push_of_room b hr, List.length_append, List.length_singleton]; omega
  · simpa [Memory.wf, push_of_full b (Nat.not_lt.mp hr)] using h

theorem pushAll_wf {m : Memory} (bs : List Byte) (h : m.wf) : (m.pushAll bs).wf := by
  induction bs generalizing m with
  | nil => simpa using h
  | cons b bs ih => exact ih (push_wf b h)

theorem nil_wf : Memory.wf [] := Nat.zero_le _

theorem tail_wf {b : Byte} {m : Memory} (h : Memory.wf (b :: m)) : m.wf := by
  simp only [Memory.wf, List.length_cons] at *; omega

theorem push_length_le (m : Memory) (b : Byte) : m.length ≤ (m.push b).length := by
  obtain ⟨t, ht⟩ := pushAll_extends m [b]
  simp only [pushAll_cons, pushAll_nil] at ht
  simp [ht]

theorem pushAll_length_le (m : Memory) (bs : List Byte) : m.length ≤ (m.pushAll bs).length := by
  obtain ⟨t, ht⟩ := pushAll_extends m bs
  simp [ht]

theorem reset_memory_wf : State.reset.block.rxq.wf := nil_wf

end Sys2Proof.Machine
end

