-- ==== Sys2Proof/Laws/Arith.lean ====
section
/-! SUPPORT. Big-endian assembly and the byte sum as numbers. -/

namespace Sys2Proof

theorem be16_toNat (h l : Byte) : (be16 h l).toNat = 256 * h.toNat + l.toNat := by
  have := l.isLt
  simp only [be16, BitVec.toNat_append, Nat.shiftLeft_eq]
  rw [Nat.mul_comm, ← Nat.two_pow_add_eq_or_of_lt (by simpa using this)]

theorem addByte_toNat (a : Word) (b : Byte) : (addByte a b).toNat = (a.toNat + b.toNat) % 65536 := by
  have := b.isLt
  simp [addByte, BitVec.toNat_add, BitVec.toNat_setWidth]

theorem addByte_comm (a : Word) (b c : Byte) : addByte (addByte a b) c = addByte (addByte a c) b := by
  simp only [addByte, BitVec.add_assoc, BitVec.add_comm (b.setWidth 16)]

theorem addByte_injective_byte {a : Word} {b c : Byte} (h : addByte a b = addByte a c) : b = c := by
  have hb := b.isLt
  have hc := c.isLt
  have ha := a.isLt
  have := congrArg BitVec.toNat h
  rw [addByte_toNat, addByte_toNat] at this
  apply BitVec.eq_of_toNat_eq
  omega

theorem addByte_injective_acc {a c : Word} {b : Byte} (h : addByte a b = addByte c b) : a = c := by
  simpa [addByte] using h

/-- The accumulator and the sum of the bytes before it. -/
theorem foldl_addByte (acc : Word) (bs : List Byte) : bs.foldl addByte acc = acc + sum16 bs := by
  induction bs generalizing acc with
  | nil => simp [sum16]
  | cons b bs ih =>
    have h0 := ih (addByte 0#16 b)
    rw [List.foldl_cons, ih, show sum16 (b :: bs) = bs.foldl addByte (addByte 0#16 b) from rfl, h0]
    simp [addByte, BitVec.add_assoc]

@[simp] theorem sum16_nil : sum16 [] = 0#16 := rfl

theorem sum16_cons (b : Byte) (bs : List Byte) : sum16 (b :: bs) = b.setWidth 16 + sum16 bs := by
  rw [sum16, List.foldl_cons, foldl_addByte]; simp [addByte]

theorem sum16_append (xs ys : List Byte) : sum16 (xs ++ ys) = sum16 xs + sum16 ys := by
  rw [sum16, List.foldl_append, foldl_addByte]; rfl

theorem addByte_sum16 (xs : List Byte) (b : Byte) : addByte (sum16 xs) b = sum16 (xs ++ [b]) := by
  simp [sum16]

@[simp] theorem length_beBytes (v : Word) : (beBytes v).length = 2 := rfl

theorem length_fieldBytes (fs : List Word) : (fieldBytes fs).length = 2 * fs.length := by
  induction fs with
  | nil => rfl
  | cons f fs ih => simp [fieldBytes] at *; omega

@[simp] theorem be16_hi_lo (v : Word) : be16 (hiByte v) (loByte v) = v := by
  simp only [be16, hiByte, loByte]
  apply BitVec.eq_of_getLsbD_eq
  intro i hi
  simp only [BitVec.getLsbD_append, BitVec.getLsbD_extractLsb']
  by_cases h : i < 8
  · simp [h]
  · simp only [h, if_false]
    have : 8 + (i - 8) = i := by omega
    simp [this]; omega

@[simp] theorem hi_be16 (h l : Byte) : hiByte (be16 h l) = h := by
  apply BitVec.eq_of_getLsbD_eq
  intro i hi
  simp only [be16, hiByte, BitVec.getLsbD_append, BitVec.getLsbD_extractLsb']
  simp [hi]

@[simp] theorem lo_be16 (h l : Byte) : loByte (be16 h l) = l := by
  apply BitVec.eq_of_getLsbD_eq
  intro i hi
  simp only [be16, loByte, BitVec.getLsbD_append, BitVec.getLsbD_extractLsb']
  simp [hi]

end Sys2Proof
end

