-- ==== Sys2Proof/Laws/Encoding.lean ====
section
/-! SUPPORT. Well-formedness as propositions, and the assembly of measurement frames: fields and bytes, the length
field, the frame's length. -/

namespace Sys2Proof

theorem wellFormed_decode (n : BitVec 4) : (Instr.decode n).wellFormed = true ↔ n.toNat ≤ 13 :=
  ⟨of_decide_eq_true, decide_eq_true⟩

theorem wellFormed_mframe (fields : List Word) (chk : Word) :
    (Instr.mframe fields chk).wellFormed = true ↔ fields.length ≤ 27 :=
  ⟨of_decide_eq_true, decide_eq_true⟩

theorem legalLength_iff (l : Word) : legalLength l = true ↔ l.toNat % 2 = 0 ∧ 2 ≤ l.toNat ∧ l.toNat ≤ 56 := by
  unfold legalLength
  rw [Bool.and_eq_true, Bool.and_eq_true, and_assoc]
  exact and_congr (decide_eq_true_iff ..) (and_congr (decide_eq_true_iff ..) (decide_eq_true_iff ..))

theorem lengthField_toNat {n : Nat} (h : n ≤ 27) : (lengthField n).toNat = 2 * n + 2 := by
  simp [lengthField]; omega

theorem legalLength_lengthField {n : Nat} (h : n ≤ 27) : legalLength (lengthField n) = true := by
  rw [legalLength_iff, lengthField_toNat h]; omega

@[simp] theorem fieldBytes_nil : fieldBytes [] = [] := rfl
@[simp] theorem fieldBytes_cons (f : Word) (fs : List Word) :
    fieldBytes (f :: fs) = hiByte f :: loByte f :: fieldBytes fs := rfl

theorem fieldsOf_fieldBytes (fs : List Word) : fieldsOf (fieldBytes fs) = fs := by
  induction fs with
  | nil => rfl
  | cons f fs ih => simp [fieldsOf, ih]

theorem fieldBytes_fieldsOf (bs : List Byte) (h : bs.length % 2 = 0) : fieldBytes (fieldsOf bs) = bs := by
  induction bs using fieldsOf.induct with
  | case1 hb lb rest ih =>
    simp only [fieldsOf, fieldBytes_cons, hi_be16, lo_be16]
    rw [ih (by simp only [List.length_cons] at h; omega)]
  | case2 bs hno =>
    match bs, hno with
    | [], _ => rfl
    | [x], _ => simp at h
    | a :: b :: c, hno => exact absurd rfl (hno a b c)

/-- A measurement frame, byte by byte. -/
theorem measurementFrame_eq (fs : List Word) (chk : Word) :
    measurementFrame fs chk =
      0x42#8 :: 0x4D#8 :: hiByte (lengthField fs.length) :: loByte (lengthField fs.length) ::
        (fieldBytes fs ++ [hiByte chk, loByte chk]) := rfl

theorem length_summedBytes (fs : List Word) : (summedBytes fs).length = 2 * fs.length + 4 := by
  simp [summedBytes, length_fieldBytes]; omega

theorem length_measurementFrame (fs : List Word) (chk : Word) :
    (measurementFrame fs chk).length = 2 * fs.length + 6 := by
  simp [measurementFrame, length_summedBytes]

end Sys2Proof
end

