-- ==== Sys2Proof/Laws/Micro.lean ====
section
/-! SUPPORT. Everything a micro-step can do, said once: the inversion of `Block.micro` and of its payload step, and each
micro-step as an equation. -/

namespace Sys2Proof.Machine

open Host (Outcome)

/-- The three ways a payload byte goes (R158). -/
theorem payByte_cases {b : Byte} {k k' : Block} (h : payByte b k = .ok k') :
    (k.atHighByte = true ∧ k' = { advancePayload b k with hold := b }) ∨
    (k.atHighByte = false ∧ k.fieldIndex < k.nreq.toNat ∧ k.fieldIndex < 13 ∧
      k' = { advancePayload b k with
        record := k.record.setIfInBounds k.fieldIndex (be16 k.hold b)
        nval := BitVec.ofNat 4 (k.fieldIndex + 1) }) ∨
    (k.atHighByte = false ∧ k.nreq.toNat ≤ k.fieldIndex ∧ k' = advancePayload b k) := by
  unfold payByte storeField at h
  split at h
  · exact .inl ⟨‹_›, by cases h; rfl⟩
  · split at h
    · split at h
      · exact .inr (.inl ⟨by simpa using ‹¬k.atHighByte = true›, ‹_›, ‹_›, by cases h; rfl⟩)
      · cases h
    · exact .inr (.inr ⟨by simpa using ‹¬k.atHighByte = true›, Nat.not_lt.mp ‹_›, by cases h; rfl⟩)

/-- A micro-step that pops a byte. -/
inductive ByteStep (k : Block) (b : Byte) (p : Block) : Block → Prop
  | sig0 (h : k.phase = .sig0) : ByteStep k b p (sig0Byte b p)
  | sig1 (h : k.phase = .sig1) : ByteStep k b p (sig1Byte b p)
  | lenh (h : k.phase = .lenh) : ByteStep k b p (lenhByte b p)
  | lenl (h : k.phase = .lenl) : ByteStep k b p (lenlByte b p)
  | pay (h : k.phase = .pay) {k' : Block} (hk : payByte b p = .ok k') : ByteStep k b p k'
  | chkh (h : k.phase = .chkh) : ByteStep k b p (chkhByte b p)
  | chkl (h : k.phase = .chkl) : ByteStep k b p (chklByte b p)

/-- What a micro-step can do (R220): nothing, where none is enabled; the SKIP step; or a step on the popped byte. -/
theorem micro_cases {k k' : Block} (h : k.micro = .ok k') :
    k' = k ∨ (k.phase = .skip ∧ k' = skipStep k) ∨
      ∃ b q, k.rxq = b :: q ∧ ByteStep k b { k with rxq := q } k' := by
  unfold Block.micro Block.onByte at h
  split at h <;> rename_i hp
  · exact .inl (by cases h; rfl)
  · exact .inr (.inl ⟨hp, by cases h; rfl⟩)
  all_goals
    split at h
    · exact .inl (by cases h; rfl)
    · rename_i b q hq
      refine .inr (.inr ⟨b, q, hq, ?_⟩)
      first
        | exact .pay hp h
        | (cases h; first | exact .sig0 hp | exact .sig1 hp | exact .lenh hp | exact .lenl hp | exact .chkh hp | exact .chkl hp)

/-- A micro-step on a popped byte, phase by phase. -/
theorem micro_sig0 {k : Block} {b q} (hp : k.phase = .sig0) (hq : k.rxq = b :: q) :
    k.micro = .ok (sig0Byte b { k with rxq := q }) := by simp [Block.micro, Block.onByte, hp, hq]
theorem micro_sig1 {k : Block} {b q} (hp : k.phase = .sig1) (hq : k.rxq = b :: q) :
    k.micro = .ok (sig1Byte b { k with rxq := q }) := by simp [Block.micro, Block.onByte, hp, hq]
theorem micro_lenh {k : Block} {b q} (hp : k.phase = .lenh) (hq : k.rxq = b :: q) :
    k.micro = .ok (lenhByte b { k with rxq := q }) := by simp [Block.micro, Block.onByte, hp, hq]
theorem micro_lenl {k : Block} {b q} (hp : k.phase = .lenl) (hq : k.rxq = b :: q) :
    k.micro = .ok (lenlByte b { k with rxq := q }) := by simp [Block.micro, Block.onByte, hp, hq]
theorem micro_pay {k : Block} {b q} (hp : k.phase = .pay) (hq : k.rxq = b :: q) :
    k.micro = payByte b { k with rxq := q } := by simp [Block.micro, Block.onByte, hp, hq]
theorem micro_chkh {k : Block} {b q} (hp : k.phase = .chkh) (hq : k.rxq = b :: q) :
    k.micro = .ok (chkhByte b { k with rxq := q }) := by simp [Block.micro, Block.onByte, hp, hq]
theorem micro_chkl {k : Block} {b q} (hp : k.phase = .chkl) (hq : k.rxq = b :: q) :
    k.micro = .ok (chklByte b { k with rxq := q }) := by simp [Block.micro, Block.onByte, hp, hq]
theorem micro_skip {k : Block} (hp : k.phase = .skip) : k.micro = .ok (skipStep k) := by simp [Block.micro, hp]
theorem micro_idle {k : Block} (hp : k.phase = .idle) : k.micro = .ok k := by simp [Block.micro, hp]

/-- One micro-step, then the rest of a run. -/
theorem run_succ_ok {k k' : Block} (n : Nat) (h : k.micro = .ok k') : Block.run (n + 1) k = Block.run n k' := by
  simp [Block.run, h]

/-- A run cut in two. -/
theorem run_add {k k' : Block} {m n : Nat} (h : Block.run m k = .ok k') : Block.run (m + n) k = Block.run n k' := by
  induction m generalizing k with
  | zero => cases h; simp
  | succ m ih =>
    cases hm : k.micro with
    | ok k1 =>
      rw [run_succ_ok m hm] at h
      rw [Nat.succ_add, run_succ_ok (m + n) hm]
      exact ih h
    | error f => simp [Block.run, hm] at h

end Sys2Proof.Machine
end

