-- ==== Sys2Proof/Laws/Parse.lean ====
section
/-! SUPPORT. A run of DECODE micro-steps over the bytes of a frame: the length check as arithmetic, pairing of bytes into
fields, and what the payload phase leaves behind after any prefix of the payload. -/

namespace Sys2Proof

/-- Pairing an even prefix first. -/
theorem fieldsOf_append (xs ys : List Byte) (h : xs.length % 2 = 0) : fieldsOf (xs ++ ys) = fieldsOf xs ++ fieldsOf ys := by
  induction xs using fieldsOf.induct with
  | case1 hb lb rest ih =>
    simp only [List.length_cons] at h
    simp [fieldsOf, ih (by omega)]
  | case2 xs hno =>
    match xs, hno with
    | [], _ => rfl
    | [x], _ => simp at h
    | a :: b :: c, hno => exact absurd rfl (hno a b c)

theorem length_fieldsOf (xs : List Byte) : (fieldsOf xs).length = xs.length / 2 := by
  induction xs using fieldsOf.induct with
  | case1 hb lb rest ih => simp only [fieldsOf, List.length_cons, ih]; omega
  | case2 xs hno =>
    match xs, hno with
    | [], _ => rfl
    | [x], _ => simp [fieldsOf]
    | a :: b :: c, hno => exact absurd rfl (hno a b c)

end Sys2Proof

namespace Sys2Proof.Machine

/-- The length check of policy A as arithmetic (R157). -/
theorem badLength_iff (n : BitVec 4) (l : Word) :
    badLength n l = true ↔ l.toNat % 2 = 1 ∨ l = 0#16 ∨ 56 < l.toNat := by
  have h0 : l.getLsbD 0 = decide (l.toNat % 2 = 1) := by simp only [BitVec.getLsbD, Nat.testBit_zero]
  simp only [badLength, badLengthUnder, Config.lengthPolicy, h0, Bool.or_eq_true, decide_eq_true_eq, or_assoc,
    Bool.false_eq_true, or_false]
  exact Iff.rfl

/-- What a run over the payload bytes `p`, started at position 0 of block `k0`, has left behind. -/
structure PayloadRun (k0 : Block) (p rest : List Byte) (k : Block) : Prop where
  rxq : k.rxq = rest
  phase : k.phase = if p.length = k0.len.toNat - 2 then .chkh else .pay
  pos : k.pos.toNat = p.length
  sum : k.sum = k0.sum + sum16 p
  hold : p.length % 2 = 1 → p.getLast? = some k.hold
  nval : k.nval.toNat = min (p.length / 2) k0.nreq.toNat
  record : ∀ (j : Nat) (hj : j < 13),
    k.record[j] = if j < k0.nreq.toNat then (fieldsOf p).getD j k0.record[j] else k0.record[j]
  frame : k.nreq = k0.nreq ∧ k.len = k0.len ∧ k.status = k0.status ∧ k.txbuf = k0.txbuf ∧ k.txvalid = k0.txvalid

/-- One more payload byte. -/
theorem PayloadRun.snoc {k0 k : Block} {p rest : List Byte} {b : Byte} (h : PayloadRun k0 p (b :: rest) k)
    (hn : k0.nreq.toNat ≤ 13) (hl : k0.len.toNat ≤ 56) (hp : p.length < k0.len.toNat - 2) :
    ∃ k', k.micro = .ok k' ∧ PayloadRun k0 (p ++ [b]) rest k' := by
  obtain ⟨hrxq, hphase, hpos, hsum, hhold, hnval, hrecord, hnreq, hlen, hstatus, htxbuf, htxvalid⟩ := h
  rw [if_neg (by omega)] at hphase
  rw [micro_pay hphase hrxq]
  have hpos' : (k.pos + 1#6).toNat = p.length + 1 := by
    rw [BitVec.toNat_add, hpos]; simp; omega
  have hlast : (if ({ k with rxq := rest } : Block).atLastPayloadByte then Phase.chkh else Phase.pay) =
      if (p ++ [b]).length = k0.len.toNat - 2 then .chkh else .pay := by
    simp [Block.atLastPayloadByte, hpos, hlen]
  have hsum' : addByte k.sum b = k0.sum + sum16 (p ++ [b]) := by
    rw [hsum, sum16_append, sum16_cons, sum16_nil]; simp [addByte, BitVec.add_assoc]
  by_cases hpar : p.length % 2 = 0
  · refine ⟨{ advancePayload b { k with rxq := rest } with hold := b }, ?_, ?_⟩
    · simp [payByte, Block.atHighByte, hpos, hpar]
    · have hf : fieldsOf (p ++ [b]) = fieldsOf p := by rw [fieldsOf_append _ _ hpar]; simp [fieldsOf]
      refine ⟨rfl, hlast, by simpa using hpos', hsum', fun _ => by simp, ?_, ?_, hnreq, hlen, hstatus, htxbuf, htxvalid⟩
      · rw [show (p ++ [b]).length / 2 = p.length / 2 by simp; omega]; exact hnval
      · intro j hj; rw [hf]; exact hrecord j hj
  · have hodd : p.length % 2 = 1 := by omega
    have hbytes : fieldsOf (p ++ [b]) = fieldsOf p ++ [be16 k.hold b] := by
      obtain ⟨q, c, rfl⟩ : ∃ q c, p = q ++ [c] := ⟨p.dropLast, p.getLast (by rintro rfl; simp at hodd),
        (List.dropLast_concat_getLast _).symm⟩
      have hq : q.length % 2 = 0 := by simp at hodd; omega
      have hc : c = k.hold := by simpa using hhold hodd
      rw [List.append_assoc, fieldsOf_append _ _ hq, fieldsOf_append _ _ hq]
      simp [fieldsOf, hc]
    have hfl := length_fieldsOf p
    have hevenlen : (p ++ [b]).length % 2 = 1 → (p ++ [b]).getLast? = some k.hold := by
      intro h; simp at h; omega
    by_cases hw : p.length / 2 < k0.nreq.toNat
    · refine ⟨{ advancePayload b { k with rxq := rest } with
        record := k.record.setIfInBounds (p.length / 2) (be16 k.hold b)
        nval := BitVec.ofNat 4 (p.length / 2 + 1) }, ?_, ?_⟩
      · have : p.length / 2 < 13 := by omega
        simp [payByte, Block.atHighByte, Block.fieldIndex, hpos, hpar, hnreq, hw, storeField, Config.nrec, this]
      · refine ⟨rfl, hlast, by simpa using hpos', hsum', hevenlen, ?_, ?_, hnreq, hlen, hstatus, htxbuf, htxvalid⟩
        · simp; omega
        · intro j hj
          simp only [Vector.getElem_setIfInBounds, hbytes, List.getD_eq_getElem?_getD, List.getElem?_append, hfl]
          by_cases hj2 : p.length / 2 = j
          · subst hj2; simp [hw]
          · rw [if_neg hj2, hrecord j hj, List.getD_eq_getElem?_getD]
            by_cases hj3 : j < p.length / 2
            · simp [hj3]
            · have h1 : ¬ j - p.length / 2 = 0 := by omega
              have h2 : (fieldsOf p)[j]? = none := by simp; omega
              simp [hj3, h2, h1]
    · refine ⟨advancePayload b { k with rxq := rest }, ?_, ?_⟩
      · simp [payByte, Block.atHighByte, Block.fieldIndex, hpos, hpar, hnreq, hw]
      · refine ⟨rfl, hlast, by simpa using hpos', hsum', hevenlen, ?_, ?_, hnreq, hlen, hstatus, htxbuf, htxvalid⟩
        · rw [show (advancePayload b { k with rxq := rest }).nval = k.nval from rfl, hnval]; simp; omega
        · intro j hj
          rw [show (advancePayload b { k with rxq := rest }).record = k.record from rfl, hrecord j hj]
          by_cases hj2 : j < k0.nreq.toNat
          · simp only [hj2, if_true, hbytes, List.getD_eq_getElem?_getD, List.getElem?_append, hfl]
            rw [if_pos (by omega)]
          · simp [hj2]

/-- A block at the start of the payload runs over any prefix of it. -/
theorem run_payload {k0 : Block} {p rest : List Byte} (hphase : k0.phase = .pay) (hpos : k0.pos = 0#6)
    (hnval : k0.nval = 0#4) (hq : k0.rxq = p ++ rest) (hn : k0.nreq.toNat ≤ 13) (hl : k0.len.toNat ≤ 56)
    (hl4 : 4 ≤ k0.len.toNat) (hp : p.length ≤ k0.len.toNat - 2) :
    ∃ k, Block.run p.length k0 = .ok k ∧ PayloadRun k0 p rest k := by
  induction p using List.reverseRecOn generalizing rest with
  | nil =>
    refine ⟨k0, rfl, hq, ?_, ?_, ?_, ?_, ?_, ?_, rfl, rfl, rfl, rfl, rfl⟩
    · rw [if_neg (by simp; omega)]; exact hphase
    · simp [hpos]
    · simp
    · intro h; simp at h
    · simp [hnval]
    · intro j hj; simp [fieldsOf]
  | append_singleton p b ih =>
    obtain ⟨k, hk, hrun⟩ := ih (rest := b :: rest) (by simpa using hq) (by simp at hp; omega)
    obtain ⟨k', hk', hrun'⟩ := hrun.snoc hn hl (by simp at hp; omega)
    refine ⟨k', ?_, hrun'⟩
    rw [List.length_append, run_add hk]
    simp [Block.run, hk']

/-- The request step of a DECODE that finds enough bytes (R152). -/
theorem execDecode_start {n : BitVec 4} {s : State} (hn : n.toNat ≤ 13) (hi : s.block.phase = .idle)
    (hl : 2 * n.toNat + 6 ≤ s.block.rxq.length) :
    execDecode n s = .next { s with block := { s.block with nreq := n, sum := 0#16, nval := 0#4, phase := .sig0 } } := by
  have : ¬ s.block.avail < threshold n := by simp [Block.avail, threshold]; omega
  have hn' : n.toNat ≤ Config.nrec := hn
  simp [execDecode, hn', State.whenIdle, hi, State.mapBlock, startDecode, this]

/-- The first four micro-steps of a DECODE whose second byte is right: what is left is the length check on the fourth
byte (R153 to R156). -/
theorem run_header {k : Block} {b0 h l : Byte} {q : List Byte} (hp : k.phase = .sig0)
    (hq : k.rxq = b0 :: 0x4D#8 :: h :: l :: q) (hs : k.sum = 0#16) :
    Block.run 4 k = .ok (lenlByte l { k with
      rxq := q, sum := b0.setWidth 16 + 0x4D#16 + h.setWidth 16, hold := h, phase := .lenl }) := by
  rw [run_succ_ok _ (micro_sig0 hp hq), run_succ_ok _ (micro_sig1 (q := h :: l :: q) (b := 0x4D#8) rfl rfl),
    run_succ_ok _ (micro_lenh (q := l :: q) (b := h) rfl rfl), run_succ_ok _ (micro_lenl (q := q) (b := l) rfl rfl)]
  simp [Block.run, sig0Byte, sig1Byte, lenhByte, Block.addSum, addByte, Config.sig1, hs]

/-- The length check accepts the length field of a frame with at most 27 fields (R156, R157). -/
theorem lenlByte_legal {k : Block} {N : Nat} (hN : N ≤ 27) (hh : k.hold = hiByte (lengthField N)) :
    lenlByte (loByte (lengthField N)) k = { k with
      sum := k.sum + (loByte (lengthField N)).setWidth 16, len := lengthField N, pos := 0#6
      phase := if N = 0 then .chkh else .pay } := by
  have hbl : badLength k.nreq (lengthField N) = false := by
    rw [Bool.eq_false_iff, Ne, badLength_iff, lengthField_toNat hN]
    rintro (h | h | h)
    · omega
    · have := congrArg BitVec.toNat h
      rw [lengthField_toNat hN] at this
      simp at this
    · omega
  have h2 : lengthField N = 2#16 ↔ N = 0 := by
    refine ⟨fun h => ?_, by rintro rfl; rfl⟩
    have := congrArg BitVec.toNat h
    rw [lengthField_toNat hN] at this
    simp at this
    omega
  by_cases h : N = 0
  · subst h; simp [lenlByte, hh, hbl, h2, Block.addSum, addByte]
  · simp [lenlByte, hh, hbl, h2, h, Block.addSum, addByte]

end Sys2Proof.Machine
end

