-- ==== Sys2Proof/Laws/PerInstr.lean ====
section
/-! SUPPORT. Statements made instruction by instruction: the length of every encoding (30_encoding.md R90). -/

namespace Sys2Proof.Laws.FormatLength

/-- The encoding of a well-formed instruction has the length of its format: one byte for a request word, seven for a command
frame, `4 + L` for a measurement frame whose length field is `L` (R90). -/
def Statement (i : Instr) : Prop :=
  i.wellFormed = true →
    match i.channel with
    | .opreq => (encode i).length = 1
    | .tx => (encode i).length = 7
    | .rx => ∃ h l : Byte, (encode i)[2]? = some h ∧ (encode i)[3]? = some l ∧
        (encode i).length = 4 + (be16 h l).toNat

theorem skip : Statement .skip := fun _ => rfl
theorem decode (n : BitVec 4) : Statement (.decode n) := fun _ => rfl
theorem encodeRead : Statement .encodeRead := fun _ => rfl
theorem encodePassive : Statement .encodePassive := fun _ => rfl
theorem encodeActive : Statement .encodeActive := fun _ => rfl
theorem encodeSleep : Statement .encodeSleep := fun _ => rfl
theorem encodeWake : Statement .encodeWake := fun _ => rfl
theorem encodeReset : Statement .encodeReset := fun _ => rfl
theorem encodeRsvd67 (x : BitVec 1) : Statement (.encodeRsvd67 x) := fun _ => rfl
theorem encodeRsvd815 (x : BitVec 3) : Statement (.encodeRsvd815 x) := fun _ => rfl
theorem flush : Statement .flush := fun _ => rfl
theorem cmdRead : Statement .cmdRead := fun _ => rfl
theorem cmdPassive : Statement .cmdPassive := fun _ => rfl
theorem cmdActive : Statement .cmdActive := fun _ => rfl
theorem cmdSleep : Statement .cmdSleep := fun _ => rfl
theorem cmdWake : Statement .cmdWake := fun _ => rfl
theorem mframe (fields : List Word) (chk : Word) : Statement (.mframe fields chk) := by
  intro h
  rw [wellFormed_mframe] at h
  refine ⟨hiByte (lengthField fields.length), loByte (lengthField fields.length), rfl, rfl, ?_⟩
  rw [be16_hi_lo, lengthField_toNat h]
  simp only [encode, length_measurementFrame]
  omega

end Sys2Proof.Laws.FormatLength
end

