-- ==== Sys2Proof/Laws/Step.lean ====
section
/-! SUPPORT. What a step can do to the block, said once: the relation `BlockMove` and the inversion of `step` into it. Every
invariant of the block is a case analysis of this relation. Beside it, `step_cause` gives each change its event, and
`request_effect` each request its word. -/

namespace Sys2Proof.Machine

open Host (Outcome)

/-- The moves of the block (R220) but for `RESET`. -/
inductive BlockMove (k : Block) : Block → Prop
  | same : BlockMove k k
  | pushAll (bytes : List Byte) : BlockMove k (k.rxPushAll bytes)
  | timeout : BlockMove k k.rxTimeout
  | micro {k' : Block} (h : k.micro = .ok k') : BlockMove k k'
  | skip (hidle : k.phase = .idle) : BlockMove k { k with phase := .skip }
  | decode (hidle : k.phase = .idle) (n : BitVec 4) (hn : n.toNat ≤ 13) : BlockMove k (startDecode n k)
  | load (hidle : k.phase = .idle) (c0 c1 c2 : Byte) : BlockMove k (k.loadTx c0 c1 c2)
  | drop (hidle : k.phase = .idle) : BlockMove k k.dropTx
  | flush (hidle : k.phase = .idle) : BlockMove k k.flushQueue

/-- A request takes effect on an idle block or changes nothing (R73). -/
theorem whenIdle_cases {s t : State} {f : Block → Block} (h : s.whenIdle f = .next t) :
    (s.block.phase = .idle ∧ t = s.mapBlock f) ∨ (s.block.phase ≠ .idle ∧ t = s) := by
  unfold State.whenIdle at h
  split at h
  · exact .inl ⟨‹_›, by cases h; rfl⟩
  · exact .inr ⟨‹_›, by cases h; rfl⟩

/-- On an idle block a request is its effect. -/
theorem whenIdle_idle {s : State} (f : Block → Block) (h : s.block.phase = .idle) :
    s.whenIdle f = .next (s.mapBlock f) := by simp [State.whenIdle, h]

theorem whenIdle_move {s t : State} {f : Block → Block}
    (hf : s.block.phase = .idle → BlockMove s.block (f s.block)) (h : s.whenIdle f = .next t) :
    BlockMove s.block t.block := by
  obtain ⟨hp, rfl⟩ | ⟨-, rfl⟩ := whenIdle_cases h
  · exact hf hp
  · exact .same

theorem encodeCommand_move {k : Block} (cmd : Command) (h : k.phase = .idle) :
    BlockMove k (encodeCommand cmd k) := by
  unfold encodeCommand
  split
  · exact .load h _ _ _
  · exact .drop h

/-- What an instruction does to the block. -/
theorem exec_move {i : Instr} {s t : State} (h : exec i s = .next t) : BlockMove s.block t.block := by
  cases i with
  | skip => exact whenIdle_move .skip h
  | decode n =>
    simp only [exec, execDecode] at h
    split at h
    · exact whenIdle_move (fun hp => .decode hp n ‹_›) h
    · cases h; exact .same
  | encodeRead => exact whenIdle_move (encodeCommand_move _) h
  | encodePassive => exact whenIdle_move (encodeCommand_move _) h
  | encodeActive => exact whenIdle_move (encodeCommand_move _) h
  | encodeSleep => exact whenIdle_move (encodeCommand_move _) h
  | encodeWake => exact whenIdle_move (encodeCommand_move _) h
  | encodeReset => exact whenIdle_move (encodeCommand_move _) h
  | encodeRsvd67 x => exact whenIdle_move .drop h
  | encodeRsvd815 x => exact whenIdle_move .drop h
  | flush => exact whenIdle_move .flush h
  | cmdRead => cases h; exact .same
  | cmdPassive => cases h; exact .same
  | cmdActive => cases h; exact .same
  | cmdSleep => cases h; exact .same
  | cmdWake => cases h; exact .same
  | mframe fields chk => cases h; exact .pushAll _

theorem acceptRequest_move {s after t : State} {w : Byte} (hb : after.block = s.block)
    (h : s.acceptRequest after w = .next t) : BlockMove s.block t.block := by
  unfold State.acceptRequest at h
  split at h
  · split at h
    · exact hb ▸ exec_move h
    · cases h; exact hb ▸ .same
  · cases h; exact .same

theorem transmitUnit_move {after t : State} {bytes : List Byte} (h : after.transmitUnit bytes = .next t) :
    BlockMove after.block t.block := by
  unfold State.transmitUnit at h
  split at h
  · exact exec_move h
  · cases h; exact .same

theorem programTurn_move {a : Answer} {act : HostAct} {rest : List HostAct} {s t : State}
    (h : programTurn a act rest s = .next t) : BlockMove s.block t.block := by
  unfold programTurn at h
  cases a with
  | expire => cases h; exact .same
  | count n =>
    cases act with
    | transmit bytes =>
      simp only at h
      split at h
      · cases h; exact .same
      · exact transmitUnit_move (after := { s with program := rest, result := _ }) h
    | _ => cases h; exact .same
  | go =>
    cases act with
    | request w => exact acceptRequest_move (after := { s with program := rest }) rfl h
    | readReg n =>
      cases h
      rw [readPort_block]
      exact .same
    | writeReg n w =>
      simp only at h
      split at h
      · exact acceptRequest_move (after := { s with program := rest }) rfl h
      · cases h; exact .same
    | transmit bytes => exact transmitUnit_move (after := { s with program := rest, result := _ }) h
    | readMeasurement n => simp only at h; split at h <;> (cases h; exact .same)
    | _ => cases h; exact .same

theorem sessionTurn_move {a : Answer} {act : SessionAct} {rest : List SessionAct} {s t : State}
    (h : sessionTurn a act rest s = .next t) : BlockMove s.block t.block := by
  cases act with
  | write start count =>
    cases a with
    | count n => simp only [sessionTurn, State.sessionWrite] at h; split at h <;> (cases h; exact .same)
    | _ => cases h; exact .same
  | wait need atOnce =>
    cases a with
    | go =>
      simp only [sessionTurn, State.sessionWait] at h
      split at h
      · cases h; exact .same
      · split at h <;> (cases h; exact .same)
    | expire => simp only [sessionTurn, State.sessionWait] at h; split at h <;> (cases h; exact .same)
    | count n => cases h; exact .same
  | request w =>
    cases a with
    | go => exact acceptRequest_move (after := { s with todo := rest }) rfl h
    | _ => cases h; exact .same
  | await =>
    cases a with
    | go => simp only [sessionTurn, State.sessionPlain] at h; split at h <;> (cases h; exact .same)
    | _ => cases h; exact .same
  | _ => cases a <;> (cases h; exact .same)

theorem hostTurn_move {a : Answer} {s t : State} (h : hostTurn a s = .next t) :
    BlockMove s.block t.block := by
  unfold hostTurn at h
  split at h
  · exact sessionTurn_move h
  · split at h
    · exact programTurn_move h
    · cases h; exact .same

theorem receiveBurst_move {s t : State} {bytes : List Byte} (h : s.receiveBurst bytes = .next t) :
    BlockMove s.block t.block := by
  unfold State.receiveBurst at h
  split at h
  · rename_i i rest _
    have hb : (s.rescheduleBurst rest).block = s.block := by cases rest <;> rfl
    exact hb ▸ exec_move h
  · cases h; exact .pushAll _

theorem takeEvent_move {e : Event} {s t : State} (hr : e ≠ .reset) (h : takeEvent e s = .next t) :
    BlockMove s.block t.block := by
  cases e with
  | rxPush b => cases h; exact .pushAll [b]
  | rxBurst bytes => exact receiveBurst_move h
  | rxTimeout => cases h; exact .timeout
  | block =>
    simp only [takeEvent, State.ofMicro] at h
    split at h
    · cases h; exact .micro ‹_›
    · cases h
  | host => exact hostTurn_move h
  | hostWrite n => exact hostTurn_move h
  | waitExpires => exact hostTurn_move h
  | reset => exact absurd rfl hr

theorem defaultEvent_ne_reset (s : State) : s.defaultEvent ≠ .reset := by
  unfold State.defaultEvent
  repeat' split
  all_goals simp

/-- What a step can do to the block: a move, or the `RESET` event. -/
theorem step_cases {s t : State} (h : step s = .next t) :
    BlockMove s.block t.block ∨ (s.sched.head? = some .reset ∧ t.block = Block.afterReset s.freeCount) := by
  unfold step at h
  split at h
  · rename_i e rest hs
    by_cases hr : e = .reset
    · subst hr; cases h; exact .inr ⟨by simp [hs], rfl⟩
    · exact .inl (takeEvent_move (s := { s with sched := rest }) hr h)
  · exact .inl (takeEvent_move (s := { s with sched := s.recurring }) (defaultEvent_ne_reset s) h)

/-- A step that is not `RESET` is a move. -/
theorem step_move {s t : State} (hr : s.sched.head? ≠ some .reset) (h : step s = .next t) :
    BlockMove s.block t.block :=
  (step_cases h).resolve_right fun hc => hr hc.1

/-- The step takes the event the schedule names. -/
theorem step_scheduled {s : State} {e : Event} {es : List Event} (h : s.sched = e :: es) :
    step s = takeEvent e { s with sched := es } := by simp [step, h]

/-- The step takes the default event when the schedule names none. -/
theorem step_default {s : State} (h : s.sched = []) :
    step s = takeEvent s.defaultEvent { s with sched := s.recurring } := by simp [step, h]

/-- The step takes the event that comes next, in the state with the schedule moved on. -/
theorem step_nextEvent (s : State) :
    step s = takeEvent s.nextEvent { s with sched := if s.sched = [] then s.recurring else s.sched.tail } := by
  unfold step State.nextEvent
  split <;> simp [*]

/-- Only the schedule can name `RESET`. -/
theorem nextEvent_reset_iff (s : State) : s.nextEvent = .reset ↔ s.sched.head? = some .reset := by
  unfold State.nextEvent
  cases s.sched <;> simp [defaultEvent_ne_reset]

/-- One step of the core, then the rest of its run. -/
theorem core_run_succ {s t : State} (n : Nat) (h : step s = .next t) :
    Host.Core.run Sys2Proof.core (n + 1) s = Host.Core.run Sys2Proof.core n t := by
  simp [Host.Core.run, Sys2Proof.core, h]

/-- Every instruction answers a next state, in every state. -/
theorem exec_total (i : Instr) (s : State) : ∃ t, exec i s = .next t := by
  have h : ∀ f, ∃ t, s.whenIdle f = .next t := fun f => by unfold State.whenIdle; split <;> exact ⟨_, rfl⟩
  cases i with
  | decode n => simp only [exec, execDecode]; split; exacts [h _, ⟨_, rfl⟩]
  | cmdRead => exact ⟨_, rfl⟩
  | cmdPassive => exact ⟨_, rfl⟩
  | cmdActive => exact ⟨_, rfl⟩
  | cmdSleep => exact ⟨_, rfl⟩
  | cmdWake => exact ⟨_, rfl⟩
  | mframe fields chk => exact ⟨_, rfl⟩
  | _ => exact h _

/-- What an instruction changes: the block and the wire, and nothing of the host, the session or the schedule. -/
theorem exec_frame {i : Instr} {s t : State} (h : exec i s = .next t) :
    t = { s with block := t.block, txwire := t.txwire } := by
  cases i with
  | decode n =>
    simp only [exec, execDecode] at h
    split at h
    · obtain ⟨-, rfl⟩ | ⟨-, rfl⟩ := whenIdle_cases h <;> rfl
    · cases h; rfl
  | _ =>
    first
    | (cases h; rfl)
    | (obtain ⟨-, rfl⟩ | ⟨-, rfl⟩ := whenIdle_cases h <;> rfl)

/-! ### What the host's turn and an event leave alone -/

/-- A request changes the block, of the two states it chooses from (R73). -/
theorem acceptRequest_frame {s after t : State} {w : Byte} (h : s.acceptRequest after w = .next t) :
    t = s ∨ t = { after with block := t.block, txwire := t.txwire } := by
  unfold State.acceptRequest at h
  split at h
  · split at h
    · exact .inr (exec_frame h)
    · cases h; exact .inr rfl
  · cases h; exact .inl rfl

/-- A plain write changes the block and the wire at most. -/
theorem transmitUnit_frame {after t : State} {bytes : List Byte} (h : after.transmitUnit bytes = .next t) :
    t = { after with block := t.block, txwire := t.txwire } := by
  unfold State.transmitUnit at h
  split at h
  · exact exec_frame h
  · cases h; rfl

/-- An action of the program leaves the session, the lines and the schedule alone. -/
theorem programTurn_frame {a : Answer} {act : HostAct} {rest : List HostAct} {s t : State}
    (h : programTurn a act rest s = .next t) :
    t.session = s.session ∧ t.pins = s.pins ∧ t.sched = s.sched ∧ t.recurring = s.recurring := by
  have hreq : ∀ w, s.acceptRequest { s with program := rest } w = .next t →
      t.session = s.session ∧ t.pins = s.pins ∧ t.sched = s.sched ∧ t.recurring = s.recurring := by
    intro w hw
    rcases acceptRequest_frame hw with e | e <;> rw [e] <;> simp
  unfold programTurn at h
  cases a with
  | expire => cases h; simp
  | count n =>
    cases act with
    | transmit bytes =>
      simp only at h
      split at h
      · cases h; simp
      · rw [transmitUnit_frame h]; simp
    | _ => cases h; simp
  | go =>
    cases act with
    | request w => exact hreq w h
    | readReg n => cases h; unfold State.readPort; split <;> simp
    | writeReg n w =>
      simp only at h
      split at h
      · exact hreq w h
      · cases h; simp
    | transmit bytes => rw [transmitUnit_frame h]; simp
    | readMeasurement n => simp only at h; split at h <;> (cases h; simp)
    | _ => cases h; simp

/-- An act of the session leaves the schedule alone. -/
theorem sessionTurn_schedule {a : Answer} {act : SessionAct} {rest : List SessionAct} {s t : State}
    (h : sessionTurn a act rest s = .next t) : t.sched = s.sched ∧ t.recurring = s.recurring := by
  cases act with
  | write start count =>
    cases a with
    | count n => simp only [sessionTurn, State.sessionWrite] at h; split at h <;> (cases h; simp)
    | _ => cases h; simp
  | wait need atOnce =>
    cases a with
    | go =>
      simp only [sessionTurn, State.sessionWait] at h
      split at h
      · cases h; simp
      · split at h <;> (cases h; simp)
    | expire => simp only [sessionTurn, State.sessionWait] at h; split at h <;> (cases h; simp)
    | count n => cases h; simp
  | request w =>
    cases a with
    | go => rcases acceptRequest_frame (after := { s with todo := rest }) h with e | e <;> rw [e] <;> simp
    | _ => cases h; simp
  | await =>
    cases a with
    | go => simp only [sessionTurn, State.sessionPlain] at h; split at h <;> (cases h; simp)
    | _ => cases h; simp
  | _ => cases a <;> (cases h; simp [State.finishReading])

/-- The host's turn leaves the schedule alone. -/
theorem hostTurn_schedule {a : Answer} {s t : State} (h : hostTurn a s = .next t) :
    t.sched = s.sched ∧ t.recurring = s.recurring := by
  unfold hostTurn at h
  split at h
  · exact sessionTurn_schedule h
  · split at h
    · exact (programTurn_frame h).2.2
    · cases h; simp

/-- An event leaves the schedule alone, but for the bytes of a burst that are still to come. -/
theorem takeEvent_schedule {e : Event} {s t : State} (h : takeEvent e s = .next t) :
    t.recurring = s.recurring ∧
      (t.sched = s.sched ∨ ∃ (bytes : List Byte) (i : Instr) (rest : List Byte), e = .rxBurst bytes ∧
        decode .rx bytes = .ok (i, rest) ∧ t.sched = .rxBurst rest :: s.sched) := by
  cases e with
  | rxBurst bytes =>
    simp only [takeEvent, State.receiveBurst] at h
    split at h
    · rename_i i rest hd
      rw [exec_frame h]
      cases rest with
      | nil => simp [State.rescheduleBurst]
      | cons b q => exact ⟨rfl, .inr ⟨bytes, i, b :: q, rfl, hd, rfl⟩⟩
    · cases h; simp
  | block =>
    simp only [takeEvent, State.ofMicro] at h
    split at h <;> cases h
    simp
  | host => exact ⟨(hostTurn_schedule h).2, .inl (hostTurn_schedule h).1⟩
  | hostWrite n => exact ⟨(hostTurn_schedule h).2, .inl (hostTurn_schedule h).1⟩
  | waitExpires => exact ⟨(hostTurn_schedule h).2, .inl (hostTurn_schedule h).1⟩
  | reset => cases h; simp [State.resetBlock]
  | _ => cases h; simp

/-! ### What a step does to the block, with its cause -/

/-- What stands on the transmit stream is a command frame (R90). -/
theorem decodeTx_channel {bytes rest : List Byte} {i : Instr} (h : decode .tx bytes = .ok (i, rest)) : i.channel = .tx := by
  have code : ∀ c0 c1 c2 j, commandOfCode c0 c1 c2 = .ok j → j.channel = .tx := by
    intro c0 c1 c2 j hj
    unfold commandOfCode at hj
    repeat' split at hj
    all_goals cases hj
    all_goals rfl
  simp only [decode] at h
  unfold decodeTx at h
  split at h
  · split at h
    · split at h
      · cases h
      · split at h
        · cases h; exact code _ _ _ _ ‹_›
        · cases h
    · cases h
  · cases h

/-- What stands on the receive stream is a measurement frame (R90). -/
theorem decodeRx_mframe {bytes rest : List Byte} {i : Instr} (h : decode .rx bytes = .ok (i, rest)) :
    ∃ fields chk, i = .mframe fields chk := by
  simp only [decode] at h
  unfold decodeRx at h
  split at h
  · split at h
    · simp only at h
      split at h
      · split at h
        · cases h; exact ⟨_, _, rfl⟩
        · cases h
      · cases h
    · cases h
  · cases h

/-- A plain write leaves the block alone. -/
theorem transmitUnit_block {after t : State} {bytes : List Byte} (h : after.transmitUnit bytes = .next t) :
    t.block = after.block := by
  unfold State.transmitUnit at h
  split at h
  · rename_i i hd
    have hc := decodeTx_channel hd
    cases i <;> first | (cases hc; done) | (cases h; rfl)
  · cases h; rfl

/-- A request leaves the block alone, or the block is idle and the word's instruction runs (R73, R106). -/
theorem acceptRequest_block {s after t : State} {w : Byte} (hb : after.block = s.block)
    (h : s.acceptRequest after w = .next t) :
    t.block = s.block ∨ s.block.phase = .idle ∧ ∃ i, decodeRequest w = .ok i ∧ exec i after = .next t := by
  unfold State.acceptRequest at h
  split at h
  · split at h
    · exact .inr ⟨‹_›, _, ‹_›, h⟩
    · cases h; exact .inl hb
  · cases h; exact .inl rfl

/-- The host's turn leaves the block alone, or the block is idle and the host's request runs. -/
theorem hostTurn_block {a : Answer} {s t : State} (h : hostTurn a s = .next t) :
    t.block = s.block ∨ a = .go ∧ s.block.phase = .idle ∧ ∃ (w : Byte) (i : Instr) (u : State),
      ((∃ acts, s.todo = .request w :: acts) ∨
        s.todo = [] ∧ ∃ ps, s.program = .request w :: ps ∨ s.program = .writeReg 0 w :: ps) ∧
      decodeRequest w = .ok i ∧ u.block = s.block ∧ exec i u = .next t := by
  unfold hostTurn at h
  split at h
  · rename_i act rest hact
    cases act with
    | request w =>
      cases a with
      | go =>
        obtain hb | ⟨hi, i, hd, he⟩ := acceptRequest_block (s := s) (after := { s with todo := rest }) (w := w) rfl h
        · exact .inl hb
        · exact .inr ⟨rfl, hi, w, i, { s with todo := rest }, .inl ⟨rest, hact⟩, hd, rfl, he⟩
      | _ => cases h; exact .inl rfl
    | write start count =>
      cases a with
      | count n => simp only [sessionTurn, State.sessionWrite] at h; split at h <;> (cases h; exact .inl rfl)
      | _ => cases h; exact .inl rfl
    | wait need atOnce =>
      cases a with
      | go =>
        simp only [sessionTurn, State.sessionWait] at h
        split at h
        · cases h; exact .inl rfl
        · split at h <;> (cases h; exact .inl rfl)
      | expire => simp only [sessionTurn, State.sessionWait] at h; split at h <;> (cases h; exact .inl rfl)
      | count n => cases h; exact .inl rfl
    | await =>
      cases a with
      | go => simp only [sessionTurn, State.sessionPlain] at h; split at h <;> (cases h; exact .inl rfl)
      | _ => cases h; exact .inl rfl
    | _ => cases a <;> (cases h; exact .inl rfl)
  · rename_i htodo
    split at h
    · rename_i act rest hact
      cases a with
      | expire => cases h; exact .inl rfl
      | count n =>
        cases act with
        | transmit bytes =>
          simp only [programTurn] at h
          split at h
          · cases h; exact .inl rfl
          · exact .inl (transmitUnit_block (after := { s with program := rest, result := _ }) h)
        | _ => cases h; exact .inl rfl
      | go =>
        cases act with
        | request w =>
          obtain hb | ⟨hi, i, hd, he⟩ := acceptRequest_block (s := s) (after := { s with program := rest }) (w := w) rfl h
          · exact .inl hb
          · exact .inr ⟨rfl, hi, w, i, { s with program := rest }, .inr ⟨htodo, rest, .inl hact⟩, hd, rfl, he⟩
        | readReg n => cases h; exact .inl (readPort_block _ n)
        | writeReg n w =>
          simp only [programTurn] at h
          split at h
          · subst n
            obtain hb | ⟨hi, i, hd, he⟩ := acceptRequest_block (s := s) (after := { s with program := rest }) (w := w) rfl h
            · exact .inl hb
            · exact .inr ⟨rfl, hi, w, i, { s with program := rest }, .inr ⟨htodo, rest, .inr hact⟩, hd, rfl, he⟩
          · cases h; exact .inl rfl
        | transmit bytes => exact .inl (transmitUnit_block (after := { s with program := rest, result := _ }) h)
        | readMeasurement n => simp only [programTurn] at h; split at h <;> (cases h; exact .inl rfl)
        | _ => cases h; exact .inl rfl
    · cases h; exact .inl rfl

/-- What a step does to the block, each case with the event that is its cause. -/
inductive StepCause (s t : State) : Prop
  | same (h : t.block = s.block)
  | arrival (he : s.nextEvent.arrives = true) (bytes : List Byte) (h : t.block = s.block.rxPushAll bytes)
  | timeout (he : s.nextEvent = .rxTimeout) (h : t.block = s.block.rxTimeout)
  | micro (he : s.nextEvent = .block) (h : s.block.micro = .ok t.block)
  | reset (he : s.nextEvent = .reset) (h : t.block = Block.afterReset s.freeCount)
  | request (hi : s.block.phase = .idle) (w : Byte) (i : Instr) (u : State) (hr : s.requests w)
      (hd : decodeRequest w = .ok i) (hu : u.block = s.block) (h : exec i u = .next t)

/-- The cause of every change of the block. -/
theorem step_cause {s t : State} (h : step s = .next t) : StepCause s t := by
  rw [step_nextEvent] at h
  generalize hs : ({ s with sched := _ } : State) = s1 at h
  have hb : s1.block = s.block := by rw [← hs]
  have htodo : s1.todo = s.todo := by rw [← hs]
  have hprog : s1.program = s.program := by rw [← hs]
  have hfree : s1.freeCount = s.freeCount := by rw [← hs]
  have host : ∀ a, s.nextEvent = .host ∨ a ≠ .go → hostTurn a s1 = .next t → StepCause s t := by
    intro a he ht
    obtain h1 | ⟨ha, hi, w, i, u, hreq, hd, hu, hx⟩ := hostTurn_block ht
    · exact .same (h1.trans hb)
    · exact .request (hb ▸ hi) w i u ⟨he.resolve_right (fun hn => hn ha), by rw [← htodo, ← hprog]; exact hreq⟩ hd
        (hu.trans hb) hx
  cases he : s.nextEvent with
  | rxPush b => rw [he] at h; cases h; exact .arrival (by simp [he, Event.arrives]) [b] (by simp [hb]; rfl)
  | rxBurst bytes =>
    rw [he] at h
    simp only [takeEvent, State.receiveBurst] at h
    split at h
    · rename_i i rest hd
      obtain ⟨fields, chk, rfl⟩ := decodeRx_mframe hd
      have hbl : (s1.rescheduleBurst rest).block = s.block := by cases rest <;> exact hb
      cases h
      exact .arrival (by simp [he, Event.arrives]) (measurementFrame fields chk) (by simp [hbl])
    · cases h; exact .arrival (by simp [he, Event.arrives]) bytes (by simp [hb])
  | rxTimeout => rw [he] at h; cases h; exact .timeout he (by simp [hb])
  | block =>
    rw [he] at h
    simp only [takeEvent, State.ofMicro, hb] at h
    split at h
    · cases h; exact .micro he ‹_›
    · cases h
  | host => rw [he] at h; exact host .go (.inl he) h
  | hostWrite n => rw [he] at h; exact host (.count n) (.inr (by simp)) h
  | waitExpires => rw [he] at h; exact host .expire (.inr (by simp)) h
  | reset => rw [he] at h; cases h; exact .reset he (by simp [hfree])

/-- What the instruction of a request word does to an idle block, with the words of each operation (R100, R101). -/
theorem request_effect {w : Byte} {i : Instr} {u t : State} (hi : u.block.phase = .idle) (hd : decodeRequest w = .ok i)
    (h : exec i u = .next t) :
    (w = 0x10#8 ∧ t.block = { u.block with phase := .skip }) ∨
    (w = 0x40#8 ∧ t.block = u.block.flushQueue) ∨
    (0x20 ≤ w.toNat ∧ w.toNat ≤ 0x2D ∧ ∃ n, t.block = startDecode n u.block) ∨
    (0x30 ≤ w.toNat ∧ w.toNat ≤ 0x3F ∧
      t.block = { u.block with txbuf := t.block.txbuf, txvalid := t.block.txvalid }) := by
  have words : ∀ w : Byte, (match decodeRequest w with
      | .ok .skip => decide (w = 0x10#8)
      | .ok .flush => decide (w = 0x40#8)
      | .ok (.decode n) => decide (0x20 ≤ w.toNat ∧ w.toNat ≤ 0x2D ∧ n.toNat ≤ 13)
      | .error _ => true
      | .ok i => decide (0x30 ≤ w.toNat ∧ w.toNat ≤ 0x3F ∧ i.channel = .opreq)) = true := by decide
  have hw := words w
  rw [hd] at hw
  have effect : ∀ f, u.whenIdle f = .next t → t.block = f u.block := fun f e => by
    rw [whenIdle_idle f hi] at e; cases e; rfl
  cases i with
  | skip => exact .inl ⟨of_decide_eq_true hw, effect _ h⟩
  | flush => exact .inr (.inl ⟨of_decide_eq_true hw, effect _ h⟩)
  | decode n =>
    obtain ⟨h1, h2, hn⟩ := of_decide_eq_true hw
    simp only [exec, execDecode, show n.toNat ≤ Config.nrec from hn, if_true] at h
    exact .inr (.inr (.inl ⟨h1, h2, n, effect _ h⟩))
  | cmdRead => simp [Instr.channel] at hw
  | cmdPassive => simp [Instr.channel] at hw
  | cmdActive => simp [Instr.channel] at hw
  | cmdSleep => simp [Instr.channel] at hw
  | cmdWake => simp [Instr.channel] at hw
  | mframe fields chk => simp [Instr.channel] at hw
  | _ =>
    have hw := of_decide_eq_true hw
    exact .inr (.inr (.inr ⟨hw.1, hw.2.1, by rw [effect _ h]; rfl⟩))

end Sys2Proof.Machine
end

