-- ==== Sys2Proof/Machine/Assembly.lean ====
section
/-! DEFINITION. The lines in which the spec writes operations and environment events (30_encoding.md R108), and the
pseudo-operations with their expansions (R109). -/

namespace Sys2Proof.Machine

/-- A line of a program (R108), or a pseudo-operation (R109). -/
inductive Line where
  | skip
  | decode (n : Fin 14)
  | encode (c : Command)
  | flush
  /-- `PUSH b0 b1 ...`: bytes from the environment. -/
  | push (bytes : List Byte)
  /-- `TIMEOUT`: one `RX_TIMEOUT`. -/
  | timeout
  /-- `READ n`. -/
  | read (n : Fin 14)
  | resync
  | dropFrame
  deriving DecidableEq, Repr

/-- The request words a line expands to, in order (R108, R109); an environment line has none. -/
def Line.words : Line → List Byte
  | .skip => [wordSkip]
  | .decode n => [wordDecode (BitVec.ofNat 4 n)]
  | .encode c => [wordEncode c]
  | .flush => [wordFlush]
  | .push _ => []
  | .timeout => []
  | .read n => [wordSkip, wordDecode (BitVec.ofNat 4 n)]
  | .resync => [wordSkip]
  | .dropFrame => [wordSkip, wordDecode 0#4]

/-- The environment events of a line, in order (R108); an operation has none. -/
def Line.events : Line → List Event
  | .push bytes => bytes.map Event.rxPush
  | .timeout => [.rxTimeout]
  | .skip => []
  | .decode _ => []
  | .encode _ => []
  | .flush => []
  | .read _ => []
  | .resync => []
  | .dropFrame => []

/-- The state in which a line is next, once the line before it has completed (R108): its requests are the host's next
actions, its events are next in the schedule. -/
def State.withLine (s : State) (l : Line) : State :=
  { s with program := l.words.map HostAct.request ++ s.program, sched := l.events ++ s.sched }

/-- The name an `ENCODE` line writes (R101, R108). -/
def commandName : Command → String
  | .readData => "READ"
  | .setPassive => "PASSIVE"
  | .setActive => "ACTIVE"
  | .sleep => "SLEEP"
  | .wake => "WAKE"
  | .reset => "RESET"

/-- A byte as two hexadecimal digits (R8). -/
def hexByte (b : Byte) : String :=
  String.ofList [(Nat.digitChar (b.toNat / 16)).toUpper, (Nat.digitChar (b.toNat % 16)).toUpper]

/-- A line as text (R108, R109). -/
def Line.text : Line → String
  | .skip => "SKIP"
  | .decode n => "DECODE " ++ toString n.val
  | .encode c => "ENCODE " ++ commandName c
  | .flush => "FLUSH"
  | .push bytes => " ".intercalate ("PUSH" :: bytes.map hexByte)
  | .timeout => "TIMEOUT"
  | .read n => "READ " ++ toString n.val
  | .resync => "RESYNC"
  | .dropFrame => "DROPFRAME"

end Sys2Proof.Machine
end

