-- ==== Sys2Proof/Tests/Slice0.lean ====
section
/-! SUPPORT. The model's own tests: what well-formedness refuses, a word of every constructor written out from the spec's
encoding tables, single steps with results taken from 95_test_vectors.md, and a witness for the hypotheses of every statement. -/

namespace Sys2Proof.Tests

open Sys2Proof Sys2Proof.Machine

/-! ### Helpers -/

/-- A block in a phase with some bytes queued, everything else as after reset. -/
def blk (p : Phase) (q : List Byte) : Block := { Block.reset with phase := p, rxq := q }

/-- A machine with that block. -/
def st (k : Block) : State := { State.reset with block := k }

/-- A machine whose next event is the host's turn. -/
def hostSt (k : Block) (acts : List SessionAct) (prog : List HostAct) : State :=
  { State.reset with block := k, todo := acts, program := prog, sched := [.host] }

/-- A machine whose next events are given, with a session in a given configuration and a call to begin. -/
def callSt (e : Session) (act : HostAct) (evs : List Event) : State :=
  { State.reset with session := e, program := [act], sched := evs }

/-- The block of a next state. -/
def blockOf : Host.Outcome State Fault Refusal → Option Block
  | .next t => some t.block
  | .fault _ => none
  | .refused _ => none

/-- The wire of a next state. -/
def wireOf : Host.Outcome State Fault Refusal → Option (List Byte)
  | .next t => some t.txwire
  | .fault _ => none
  | .refused _ => none

/-- The block after a micro-step. -/
def microOf : Except Fault Block → Option Block
  | .ok k => some k
  | .error _ => none

/-- `F04` of 95_test_vectors.md 2.3. -/
def f04 : List Byte := [0x42#8, 0x4D#8, 0x00#8, 0x04#8, 0xE1#8, 0x00#8, 0x01#8, 0x74#8]

/-! ### Well-formedness refuses -/

theorem test_wellFormed_refuses_decode_14 : (Instr.decode 14#4).wellFormed = false := by decide
theorem test_wellFormed_refuses_decode_15 : (Instr.decode 15#4).wellFormed = false := by decide
theorem test_wellFormed_refuses_28_fields : (Instr.mframe (List.replicate 28 0#16) 0#16).wellFormed = false := by decide
theorem test_wellFormed_accepts_27_fields : (Instr.mframe (List.replicate 27 0#16) 0#16).wellFormed = true := by decide

/-! ### Words written out from 30_encoding.md R97, R100, R101 and the opcode table -/

theorem test_decode_skip : decode .opreq [0b00010000#8] = .ok (.skip, []) := by decide
theorem test_decode_decode : decode .opreq [0b00101101#8] = .ok (.decode 13#4, []) := by decide
theorem test_decode_encodeRead : decode .opreq [0b00110000#8] = .ok (.encodeRead, []) := by decide
theorem test_decode_encodePassive : decode .opreq [0b00110001#8] = .ok (.encodePassive, []) := by decide
theorem test_decode_encodeActive : decode .opreq [0b00110010#8] = .ok (.encodeActive, []) := by decide
theorem test_decode_encodeSleep : decode .opreq [0b00110011#8] = .ok (.encodeSleep, []) := by decide
theorem test_decode_encodeWake : decode .opreq [0b00110100#8] = .ok (.encodeWake, []) := by decide
theorem test_decode_encodeReset : decode .opreq [0b00110101#8] = .ok (.encodeReset, []) := by decide
theorem test_decode_encodeRsvd67 : decode .opreq [0b00110110#8] = .ok (.encodeRsvd67 0#1, []) := by decide
theorem test_decode_encodeRsvd815 : decode .opreq [0b00111010#8] = .ok (.encodeRsvd815 2#3, []) := by decide
theorem test_decode_flush : decode .opreq [0b01000000#8] = .ok (.flush, []) := by decide
theorem test_decode_cmdRead :
    decode .tx [0b01000010#8, 0b01001101#8, 0b00000000#8, 0b00000000#8, 0b11100010#8, 0b00000001#8, 0b01110001#8] =
      .ok (.cmdRead, []) := by decide
theorem test_decode_cmdPassive :
    decode .tx [0b01000010#8, 0b01001101#8, 0b00000000#8, 0b00000000#8, 0b11100001#8, 0b00000001#8, 0b01110000#8] =
      .ok (.cmdPassive, []) := by decide
theorem test_decode_cmdActive :
    decode .tx [0b01000010#8, 0b01001101#8, 0b00000000#8, 0b00000001#8, 0b11100001#8, 0b00000001#8, 0b01110001#8] =
      .ok (.cmdActive, []) := by decide
theorem test_decode_cmdSleep :
    decode .tx [0b01000010#8, 0b01001101#8, 0b00000000#8, 0b00000000#8, 0b11100100#8, 0b00000001#8, 0b01110011#8] =
      .ok (.cmdSleep, []) := by decide
theorem test_decode_cmdWake :
    decode .tx [0b01000010#8, 0b01001101#8, 0b00000000#8, 0b00000001#8, 0b11100100#8, 0b00000001#8, 0b01110100#8] =
      .ok (.cmdWake, []) := by decide
theorem test_decode_mframe :
    decode .rx [0b01000010#8, 0b01001101#8, 0b00000000#8, 0b00000100#8, 0b11100001#8, 0b00000000#8, 0b00000001#8,
      0b01110100#8, 0x99#8] = .ok (.mframe [0xE100#16] 0x0174#16, [0x99#8]) := by decide

theorem test_decode_reserved :
    decode .opreq [0x2E#8] = .error (.reservedOperand 0x2E#8) ∧ decode .opreq [0x11#8] = .error (.reservedOperand 0x11#8) ∧
      decode .opreq [0x50#8] = .error (.reservedOperation 0x50#8) := by decide
theorem test_decode_odd_length :
    decode .rx [0x42#8, 0x4D#8, 0x00#8, 0x1D#8] = .error (.illegalLength 0x001D#16) := by decide
theorem test_table_word_mframe : decodeTableWord 32 0x424D0004 = some (.mframe [0#16] 0#16) := by decide
theorem test_table_word_cmdSleep : decodeTableWord 56 0x424D0000E40173 = some .cmdSleep := by decide

/-! ### Single steps: SKIP and FLUSH (V42, V44, V50) -/

theorem test_skip_discards :
    (microOf (blk .skip [0x00#8, 0xFF#8]).micro).map (fun k => (k.rxq, k.phase)) = some ([0xFF#8], .skip) := by decide
theorem test_skip_stops_at_first_0x42 :
    (microOf (blk .skip [0x42#8, 0x42#8, 0x4D#8]).micro).map (fun k => (k.rxq, k.phase)) =
      some ([0x42#8, 0x42#8, 0x4D#8], .idle) := by decide
theorem test_flush :
    (blockOf (exec .flush (st (blk .idle f04)))).map (fun k => (k.rxq, k.phase)) = some ([], .idle) := by decide

/-! ### Single steps: DECODE (V4b, V15, V6, V7, V5, V10, V74) -/

theorem test_decode_noData :
    (blockOf (exec (.decode 3#4) (st (blk .idle (List.replicate 11 0x42#8))))).map
      (fun k => (k.status, k.phase, k.rxq.length)) = some (.noData, .idle, 11) := by decide
theorem test_decode_starts :
    (blockOf (exec (.decode 1#4) (st (blk .idle f04)))).map (fun k => (k.nreq, k.phase)) = some (1#4, .sig0) := by decide
theorem test_sig1_mismatch :
    (microOf ({ blk .sig1 [0x4E#8, 0x00#8] with sum := 0x0042#16 }).micro).map
      (fun k => (k.status, k.phase, k.sum, k.rxq)) = some (.readError, .idle, 0x0090#16, [0x00#8]) := by decide
theorem test_lenl_odd :
    (microOf ({ blk .lenl [0x1D#8] with sum := 0x008F#16 }).micro).map
      (fun k => (k.status, k.phase, k.sum, k.len)) = some (.frameLengthMismatch, .idle, 0x00AC#16, 0x001D#16) := by decide
theorem test_pay_stores_big_endian :
    (microOf ({ blk .pay [0x66#8] with len := 0x001C#16, nreq := 13#4, nval := 6#4, pos := 13#6, hold := 0x03#8 }).micro).map
      (fun k => (k.record[6], k.nval, k.pos, k.phase)) = some (0x0366#16, 7#4, 14#6, .pay) := by decide
theorem test_chkl_sumError :
    (microOf ({ blk .chkl [0xF1#8] with sum := 0x02F5#16, hold := 0x02#8 }).micro).map (fun k => (k.status, k.phase)) =
      some (.sumError, .idle) := by decide
theorem test_timeout_in_payload :
    ((blk .pay []).rxTimeout.status, (blk .pay []).rxTimeout.phase) = (.readError, .idle) := by decide

/-! ### Single steps: ENCODE (V30 to V36) -/

theorem test_encodeRead :
    (blockOf (exec .encodeRead (st Block.reset))).map (fun k => (k.txbuf.toList, k.txvalid)) =
      some ([0x42#8, 0x4D#8, 0x00#8, 0x00#8, 0xE2#8, 0x01#8, 0x71#8], true) := by decide
theorem test_encodePassive :
    (blockOf (exec .encodePassive (st Block.reset))).map (fun k => (k.txbuf.toList, k.txvalid)) =
      some ([0x42#8, 0x4D#8, 0x00#8, 0x00#8, 0xE1#8, 0x01#8, 0x70#8], true) := by decide
theorem test_encodeActive :
    (blockOf (exec .encodeActive (st Block.reset))).map (fun k => (k.txbuf.toList, k.txvalid)) =
      some ([0x42#8, 0x4D#8, 0x00#8, 0x01#8, 0xE1#8, 0x01#8, 0x71#8], true) := by decide
theorem test_encodeSleep :
    (blockOf (exec .encodeSleep (st Block.reset))).map (fun k => (k.txbuf.toList, k.txvalid)) =
      some ([0x42#8, 0x4D#8, 0x00#8, 0x00#8, 0xE4#8, 0x01#8, 0x73#8], true) := by decide
theorem test_encodeWake :
    (blockOf (exec .encodeWake (st Block.reset))).map (fun k => (k.txbuf.toList, k.txvalid)) =
      some ([0x42#8, 0x4D#8, 0x00#8, 0x01#8, 0xE4#8, 0x01#8, 0x74#8], true) := by decide
theorem test_encodeReset_keeps_buffer :
    (blockOf (exec .encodeReset (st { Block.reset with txbuf := Vector.replicate 7 0xAA#8, txvalid := true }))).map
      (fun k => (k.txbuf.toList, k.txvalid)) = some (List.replicate 7 0xAA#8, false) := by decide
theorem test_encodeRsvd67 :
    (blockOf (exec (.encodeRsvd67 1#1) (st { Block.reset with txvalid := true }))).map (fun k => k.txvalid) =
      some false := by decide
theorem test_encodeRsvd815 :
    (blockOf (exec (.encodeRsvd815 7#3) (st { Block.reset with txvalid := true }))).map (fun k => k.txvalid) =
      some false := by decide

/-! ### Single steps: frames on the wire (P4, P5, and F04 arriving) -/

theorem test_cmdRead :
    wireOf (exec .cmdRead State.reset) = some [0x42#8, 0x4D#8, 0x00#8, 0x00#8, 0xE2#8, 0x01#8, 0x71#8] := by decide
theorem test_cmdPassive :
    wireOf (exec .cmdPassive State.reset) = some [0x42#8, 0x4D#8, 0x00#8, 0x00#8, 0xE1#8, 0x01#8, 0x70#8] := by decide
theorem test_cmdActive :
    wireOf (exec .cmdActive State.reset) = some [0x42#8, 0x4D#8, 0x00#8, 0x01#8, 0xE1#8, 0x01#8, 0x71#8] := by decide
theorem test_cmdSleep :
    wireOf (exec .cmdSleep State.reset) = some [0x42#8, 0x4D#8, 0x00#8, 0x00#8, 0xE4#8, 0x01#8, 0x73#8] := by decide
theorem test_cmdWake :
    wireOf (exec .cmdWake State.reset) = some [0x42#8, 0x4D#8, 0x00#8, 0x01#8, 0xE4#8, 0x01#8, 0x74#8] := by decide
theorem test_mframe_is_queued :
    (blockOf (exec (.mframe [0xE100#16] 0x0174#16) State.reset)).map (fun k => k.rxq) = some f04 := by
  rfl

/-! ### The numeric codes (R270), and arrivals that recur (R79 (c)) -/

theorem test_status_codes :
    CallResult.noSerial.code = some 5#3 ∧ (CallResult.status .sumError).code = some 4#3 ∧ CallResult.code (.truth true) = none := by
  decide
theorem test_arrivals_recur :
    step { st (blk .skip [0x00#8]) with recurring := [.rxPush 0xFF#8] } =
      .next { st (blk .skip []) with recurring := [.rxPush 0xFF#8], sched := [.rxPush 0xFF#8] } := by rfl

/-! ### Arithmetic and text (V60, V61, V63, V66; R108) -/

theorem test_be16 : be16 0x03#8 0x66#8 = 0x0366#16 ∧ be16 0x97#8 0x00#8 = 38656#16 := by decide
theorem test_sum16 : sum16 [0x42#8, 0x4D#8, 0x00#8, 0x1C#8] = 0x00AB#16 ∧ addByte 0xFFFF#16 0x01#8 = 0#16 := by decide
theorem test_line_text : (Line.push [0x42#8, 0xFE#8]).text = "PUSH 42 FE" ∧ (Line.decode 13).text = "DECODE 13" := by decide
theorem test_dropFrame_words : Line.dropFrame.words = [0x10#8, 0x20#8] := by decide

/-! ### Witnesses: for every statement with hypotheses, a state and operands that meet them -/

theorem witness_ResetEventClearsBlock :
    ∃ (s : State) (es : List Event), s.sched = .reset :: es ∧ s.block.phase = .pay :=
  ⟨{ st (blk .pay []) with sched := [.reset] }, [], by decide⟩

theorem witness_SkipRequestStartsSkipping : ∃ s : State, s.block.phase = .idle := ⟨State.reset, by decide⟩

theorem witness_SkipMicroStep :
    (∃ k : Block, k.phase = .skip ∧ k.rxq = []) ∧
    (∃ (k : Block) (q : List Byte), k.phase = .skip ∧ k.rxq = 0x42#8 :: q) ∧
    (∃ (k : Block) (b : Byte) (q : List Byte), k.phase = .skip ∧ k.rxq = b :: q ∧ b ≠ 0x42#8) :=
  ⟨⟨blk .skip [], by decide⟩, ⟨blk .skip [0x42#8], [], by decide⟩, ⟨blk .skip [0x4D#8], 0x4D#8, [], by decide⟩⟩

theorem witness_SkipDiscardsUpToSignature :
    (∃ (k : Block) (i : Nat), k.phase = .skip ∧ i ≤ k.rxq.length ∧ (∀ b ∈ k.rxq.take i, b ≠ 0x42#8) ∧
      k.rxq[i]? = some 0x42#8) ∧
    (∃ (k : Block) (i : Nat), k.phase = .skip ∧ i ≤ k.rxq.length ∧ (∀ b ∈ k.rxq.take i, b ≠ 0x42#8) ∧ i = k.rxq.length) :=
  ⟨⟨blk .skip [0x00#8, 0xFF#8, 0x4D#8, 0x42#8, 0x4D#8], 3, by decide⟩, ⟨blk .skip [0x4D#8, 0x4D#8], 2, by decide⟩⟩

theorem witness_SkipEndsOnSignature :
    ∃ k k' : Block, k.phase = .skip ∧ k.micro = .ok k' ∧ k'.phase = .idle ∧ k'.rxq ≠ [] :=
  ⟨blk .skip [0x42#8], blk .idle [0x42#8], by decide, rfl, by decide, by decide⟩

theorem witness_FlushEmptiesQueue : ∃ s : State, s.block.phase = .idle ∧ s.block.rxq ≠ [] :=
  ⟨st (blk .idle f04), by decide⟩

theorem witness_DecodeStartsWhenEnoughBytesWait :
    (∃ (s : State) (n : BitVec 4), n.toNat ≤ 13 ∧ s.block.phase = .idle ∧ s.block.rxq.length < 2 * n.toNat + 6) ∧
    (∃ (s : State) (n : BitVec 4), n.toNat ≤ 13 ∧ s.block.phase = .idle ∧ 2 * n.toNat + 6 ≤ s.block.rxq.length) :=
  ⟨⟨st (blk .idle (List.replicate 31 0x42#8)), 13#4, by decide⟩, ⟨st (blk .idle (List.replicate 32 0x42#8)), 13#4, by decide⟩⟩

theorem witness_OnlyTheSecondSignatureByteIsCompared :
    (∃ (k : Block) (b : Byte) (q : List Byte), k.rxq = b :: q ∧ k.phase = .sig0) ∧
    (∃ (k : Block) (b : Byte) (q : List Byte), k.rxq = b :: q ∧ k.phase = .sig1 ∧ b = 0x4D#8) ∧
    (∃ (k : Block) (b : Byte) (q : List Byte), k.rxq = b :: q ∧ k.phase = .sig1 ∧ b ≠ 0x4D#8) :=
  ⟨⟨blk .sig0 [0x43#8], 0x43#8, [], by decide⟩, ⟨blk .sig1 [0x4D#8], 0x4D#8, [], by decide⟩,
    ⟨blk .sig1 [0x4E#8], 0x4E#8, [], by decide⟩⟩

/-- The least and greatest lengths of each clause: odd 1, zero, 58, then 2, then 4 and 56. -/
theorem witness_LengthIsCheckedWhenComplete :
    (∃ (k : Block) (b : Byte) (q : List Byte) (l : Word), k.rxq = b :: q ∧ l = k.hold ++ b ∧ k.phase = .lenh) ∧
    (∃ (k : Block) (b : Byte) (q : List Byte) (l : Word), k.rxq = b :: q ∧ l = k.hold ++ b ∧ k.phase = .lenl ∧
      l.toNat % 2 = 1) ∧
    (∃ (k : Block) (b : Byte) (q : List Byte) (l : Word), k.rxq = b :: q ∧ l = k.hold ++ b ∧ k.phase = .lenl ∧ l = 0#16) ∧
    (∃ (k : Block) (b : Byte) (q : List Byte) (l : Word), k.rxq = b :: q ∧ l = k.hold ++ b ∧ k.phase = .lenl ∧
      l.toNat = 58) ∧
    (∃ (k : Block) (b : Byte) (q : List Byte) (l : Word), k.rxq = b :: q ∧ l = k.hold ++ b ∧ k.phase = .lenl ∧ l = 2#16) ∧
    (∃ (k : Block) (b : Byte) (q : List Byte) (l : Word), k.rxq = b :: q ∧ l = k.hold ++ b ∧ k.phase = .lenl ∧
      l.toNat % 2 = 0 ∧ l.toNat = 4) ∧
    (∃ (k : Block) (b : Byte) (q : List Byte) (l : Word), k.rxq = b :: q ∧ l = k.hold ++ b ∧ k.phase = .lenl ∧
      l.toNat % 2 = 0 ∧ l.toNat = 56) :=
  ⟨⟨blk .lenh [0x00#8], 0x00#8, [], 0#16, by decide⟩, ⟨blk .lenl [0x01#8], 0x01#8, [], 1#16, by decide⟩,
    ⟨blk .lenl [0x00#8], 0x00#8, [], 0#16, by decide⟩, ⟨blk .lenl [0x3A#8], 0x3A#8, [], 0x3A#16, by decide⟩,
    ⟨blk .lenl [0x02#8], 0x02#8, [], 2#16, by decide⟩, ⟨blk .lenl [0x04#8], 0x04#8, [], 4#16, by decide⟩,
    ⟨blk .lenl [0x38#8], 0x38#8, [], 0x38#16, by decide⟩⟩

/-- The first payload byte, the last wanted low byte, and the last payload byte of the longest frame. -/
theorem witness_PayloadByteIsHeldStoredOrDiscarded :
    (∃ (k : Block) (b : Byte) (q : List Byte), k.phase = .pay ∧ k.rxq = b :: q ∧ k.nreq.toNat ≤ 13 ∧
      k.pos.toNat < k.len.toNat - 2 ∧ k.pos.toNat % 2 = 0) ∧
    (∃ (k : Block) (b : Byte) (q : List Byte), k.phase = .pay ∧ k.rxq = b :: q ∧ k.nreq.toNat ≤ 13 ∧
      k.pos.toNat < k.len.toNat - 2 ∧ k.pos.toNat % 2 = 1 ∧ k.pos.toNat / 2 < k.nreq.toNat) ∧
    (∃ (k : Block) (b : Byte) (q : List Byte), k.phase = .pay ∧ k.rxq = b :: q ∧ k.nreq.toNat ≤ 13 ∧
      k.pos.toNat < k.len.toNat - 2 ∧ k.pos.toNat % 2 = 1 ∧ k.nreq.toNat ≤ k.pos.toNat / 2) :=
  ⟨⟨{ blk .pay [0x05#8] with len := 4#16, pos := 0#6, nreq := 1#4 }, 0x05#8, [], by decide⟩,
    ⟨{ blk .pay [0x05#8] with len := 28#16, pos := 25#6, nreq := 13#4 }, 0x05#8, [], by decide⟩,
    ⟨{ blk .pay [0x05#8] with len := 56#16, pos := 53#6, nreq := 13#4 }, 0x05#8, [], by decide⟩⟩

theorem witness_ChecksumIsComparedAndNotSummed :
    (∃ (k : Block) (b : Byte) (q : List Byte), k.rxq = b :: q ∧ k.phase = .chkh) ∧
    (∃ (k : Block) (b : Byte) (q : List Byte), k.rxq = b :: q ∧ k.phase = .chkl ∧ k.hold ++ b = k.sum) ∧
    (∃ (k : Block) (b : Byte) (q : List Byte), k.rxq = b :: q ∧ k.phase = .chkl ∧ k.hold ++ b ≠ k.sum) :=
  ⟨⟨blk .chkh [0x00#8], 0x00#8, [], by decide⟩, ⟨{ blk .chkl [0xAB#8] with sum := 0x00AB#16 }, 0xAB#8, [], by decide⟩,
    ⟨{ blk .chkl [0x5D#8] with sum := 0x00AB#16 }, 0x5D#8, [], by decide⟩⟩

theorem witness_TimeoutEndsOnlyAWaitingDecode :
    (∃ (s : State) (es : List Event), s.sched = .rxTimeout :: es ∧ s.block.phase ≠ .idle ∧ s.block.phase ≠ .skip ∧
      s.block.rxq = []) ∧
    (∃ (s : State) (es : List Event), s.sched = .rxTimeout :: es ∧ s.block.phase = .idle) ∧
    (∃ (s : State) (es : List Event), s.sched = .rxTimeout :: es ∧ s.block.phase = .skip) ∧
    (∃ (s : State) (es : List Event), s.sched = .rxTimeout :: es ∧ s.block.phase = .pay ∧ s.block.rxq ≠ []) :=
  ⟨⟨{ st (blk .chkl []) with sched := [.rxTimeout] }, [], by decide⟩,
    ⟨{ st (blk .idle []) with sched := [.rxTimeout] }, [], by decide⟩,
    ⟨{ st (blk .skip []) with sched := [.rxTimeout] }, [], by decide⟩,
    ⟨{ st (blk .pay [0x00#8]) with sched := [.rxTimeout] }, [], by decide⟩⟩

/-- The longest frame after a wrong first byte, with one byte after it. -/
theorem witness_DecodeParsesWholeFrame :
    ∃ (s : State) (n : BitVec 4) (b0 : Byte) (fields : List Word) (chk : Word) (rest : List Byte),
      n.toNat ≤ 13 ∧ fields.length ≤ 27 ∧ s.block.phase = .idle ∧
      s.block.rxq = (b0 :: (encode (.mframe fields chk)).tail) ++ rest ∧ 2 * n.toNat + 6 ≤ s.block.rxq.length :=
  ⟨st (blk .idle ((0x43#8 :: (encode (.mframe (List.replicate 27 0x0101#16) 0#16)).tail) ++ [0x99#8])), 13#4, 0x43#8,
    List.replicate 27 0x0101#16, 0#16, [0x99#8], by decide, by decide, rfl, rfl, by decide⟩

/-- V16, the shortest cut, and a cut between the two checksum bytes (V16c). -/
theorem witness_DecodeOfATruncatedFrameTimesOut :
    (∃ (s : State) (n : BitVec 4) (fields : List Word) (chk : Word) (m : Nat), n.toNat ≤ 13 ∧ fields.length ≤ 27 ∧
      s.block.phase = .idle ∧ m = 2 * n.toNat + 6 ∧ m < 2 * fields.length + 6 ∧
      s.block.rxq = (encode (.mframe fields chk)).take m) ∧
    (∃ (s : State) (n : BitVec 4) (fields : List Word) (chk : Word) (m : Nat), n.toNat ≤ 13 ∧ fields.length ≤ 27 ∧
      s.block.phase = .idle ∧ 2 * n.toNat + 6 ≤ m ∧ m + 1 = 2 * fields.length + 6 ∧
      s.block.rxq = (encode (.mframe fields chk)).take m) :=
  ⟨⟨st (blk .idle ((encode (.mframe (List.replicate 13 5#16) 0#16)).take 12)), 3#4, List.replicate 13 5#16, 0#16, 12,
      by decide, by decide, rfl, rfl, by decide, rfl⟩,
    ⟨st (blk .idle ((encode (.mframe (List.replicate 13 5#16) 0#16)).take 31)), 3#4, List.replicate 13 5#16, 0#16, 31,
      by decide, by decide, rfl, by decide, rfl, rfl⟩⟩

theorem witness_DecodeOfAWrongSignatureReportsReadError :
    ∃ (s : State) (n : BitVec 4) (b0 b1 : Byte) (rest : List Byte), n.toNat ≤ 13 ∧ s.block.phase = .idle ∧
      s.block.rxq = b0 :: b1 :: rest ∧ 2 * n.toNat + 6 ≤ s.block.rxq.length ∧ b1 ≠ 0x4D#8 :=
  ⟨st (blk .idle (0x42#8 :: 0x4E#8 :: List.replicate 30 0x00#8)), 13#4, 0x42#8, 0x4E#8, List.replicate 30 0x00#8, by decide⟩

theorem witness_DecodeOfABadLengthReportsMismatch :
    (∃ (s : State) (n : BitVec 4) (b0 h l : Byte) (rest : List Byte), n.toNat ≤ 13 ∧ s.block.phase = .idle ∧
      s.block.rxq = b0 :: 0x4D#8 :: h :: l :: rest ∧ 2 * n.toNat + 6 ≤ s.block.rxq.length ∧ (h ++ l).toNat % 2 = 1) ∧
    (∃ (s : State) (n : BitVec 4) (b0 h l : Byte) (rest : List Byte), n.toNat ≤ 13 ∧ s.block.phase = .idle ∧
      s.block.rxq = b0 :: 0x4D#8 :: h :: l :: rest ∧ 2 * n.toNat + 6 ≤ s.block.rxq.length ∧ h ++ l = 0#16) ∧
    (∃ (s : State) (n : BitVec 4) (b0 h l : Byte) (rest : List Byte), n.toNat ≤ 13 ∧ s.block.phase = .idle ∧
      s.block.rxq = b0 :: 0x4D#8 :: h :: l :: rest ∧ 2 * n.toNat + 6 ≤ s.block.rxq.length ∧ (h ++ l).toNat = 58) :=
  ⟨⟨st (blk .idle [0x42#8, 0x4D#8, 0x00#8, 0x1D#8, 0x00#8, 0x00#8]), 0#4, 0x42#8, 0x00#8, 0x1D#8, [0x00#8, 0x00#8], by decide⟩,
    ⟨st (blk .idle [0x42#8, 0x4D#8, 0x00#8, 0x00#8, 0x00#8, 0x00#8]), 0#4, 0x42#8, 0x00#8, 0x00#8, [0x00#8, 0x00#8], by decide⟩,
    ⟨st (blk .idle [0x42#8, 0x4D#8, 0x00#8, 0x3A#8, 0x00#8, 0x00#8]), 0#4, 0x42#8, 0x00#8, 0x3A#8, [0x00#8, 0x00#8], by decide⟩⟩

theorem witness_EchoedCommandFrameIsRejected :
    (∃ (s : State) (n : BitVec 4) (c : Command) (rest : List Byte), c ≠ .reset ∧ n.toNat ≤ 13 ∧ s.block.phase = .idle ∧
      s.block.rxq = frameOf c ++ rest ∧ 2 * n.toNat + 6 ≤ s.block.rxq.length ∧ n = 0#4) ∧
    (∃ (s : State) (n : BitVec 4) (c : Command) (rest : List Byte), c ≠ .reset ∧ n.toNat ≤ 13 ∧ s.block.phase = .idle ∧
      s.block.rxq = frameOf c ++ rest ∧ 2 * n.toNat + 6 ≤ s.block.rxq.length ∧ n = 13#4) :=
  ⟨⟨st (blk .idle (frameOf .setActive)), 0#4, .setActive, [], by decide⟩,
    ⟨st (blk .idle (frameOf .sleep ++ List.replicate 25 0x00#8)), 13#4, .sleep, List.replicate 25 0x00#8, by decide⟩⟩

theorem witness_ChangedPayloadByteReportsSumError :
    ∃ (s : State) (n : BitVec 4) (fields fields' : List Word) (pre post : List Byte) (x y : Byte) (rest : List Byte),
      n.toNat ≤ 13 ∧ fields.length ≤ 27 ∧ s.block.phase = .idle ∧ fieldBytes fields = pre ++ x :: post ∧
      fieldBytes fields' = pre ++ y :: post ∧ x ≠ y ∧
      s.block.rxq = encode (.mframe fields' (sum16 (summedBytes fields))) ++ rest ∧ 2 * n.toNat + 6 ≤ s.block.rxq.length :=
  ⟨st (blk .idle (encode (.mframe [0x0766#16] (sum16 (summedBytes [0x0366#16]))))), 1#4, [0x0366#16], [0x0766#16], [],
    [0x66#8], 0x03#8, 0x07#8, [], by decide⟩

theorem witness_ArrivalCommutesWithMicroStep :
    ∃ k k' : Block, k.rxq ≠ [] ∧ k.rxq.length < Config.rxDepth ∧ k.micro = .ok k' :=
  ⟨blk .sig0 [0x42#8], sig0Byte 0x42#8 (blk .sig0 []), by decide, Nat.lt_of_lt_of_le (by decide) rxDepth_ge, rfl⟩

theorem witness_EncodeLoadsCommandFrame : ∃ s : State, s.block.phase = .idle := ⟨State.reset, by decide⟩

theorem witness_EncodeWithoutFrameClearsTxvalid :
    ∃ (s : State) (_x : BitVec 1) (_y : BitVec 3), s.block.phase = .idle ∧ s.block.txvalid = true :=
  ⟨st { Block.reset with txvalid := true }, 1#1, 7#3, by decide⟩

theorem witness_ReceivedByteIsAppendedOrDropped :
    (∃ (s : State) (b : Byte) (es : List Event), s.sched = .rxPush b :: es ∧ s.block.rxq.length < Config.rxDepth) ∧
    (∃ (s : State) (b : Byte) (es : List Event), s.sched = .rxPush b :: es ∧ Config.rxDepth = s.block.rxq.length) :=
  ⟨⟨{ st (blk .idle []) with sched := [.rxPush 0x42#8] }, 0x42#8, [], rfl, Nat.lt_of_lt_of_le (by decide) rxDepth_ge⟩,
    ⟨{ st (blk .idle (List.replicate Config.rxDepth 0#8)) with sched := [.rxPush 0x42#8] }, 0x42#8, [], rfl,
      (List.length_replicate ..).symm⟩⟩

theorem witness_ByteSumIsOrderIndependent : ∃ xs ys : List Byte, xs.Perm ys ∧ xs ≠ ys :=
  ⟨[0x05#8, 0x00#8], [0x00#8, 0x05#8], List.Perm.swap .., by decide⟩

theorem witness_DecodeOfEncodeIsIdentity :
    (Instr.decode 13#4).wellFormed = true ∧ (Instr.mframe (List.replicate 27 0xFFFF#16) 0#16).wellFormed = true := by decide

theorem witness_DecodedBytesAreTheEncoding :
    ∃ (c : Channel) (bytes : List Byte) (i : Instr) (rest : List Byte), decode c bytes = .ok (i, rest) :=
  ⟨.rx, f04 ++ [0x42#8], .mframe [0xE100#16] 0x0174#16, [0x42#8], by decide⟩

theorem witness_StepRunsTheDecodedInstruction :
    (∃ (s : State) (i : Instr) (es : List Event) (w : Byte) (ps : List HostAct), s.sched = .host :: es ∧ s.todo = [] ∧
      s.program = .request w :: ps ∧ s.block.phase = .idle ∧ decode .opreq [w] = .ok (i, [])) ∧
    (∃ (s : State) (i : Instr) (es : List Event) (w : Byte) (ps : List HostAct), s.sched = .host :: es ∧ s.todo = [] ∧
      s.program = .writeReg 0 w :: ps ∧ s.block.phase = .idle ∧ decode .opreq [w] = .ok (i, [])) ∧
    (∃ (s : State) (i : Instr) (es : List Event) (w : Byte) (acts : List SessionAct), s.sched = .host :: es ∧
      s.todo = .request w :: acts ∧ s.block.phase = .idle ∧ decode .opreq [w] = .ok (i, [])) ∧
    (∃ (s : State) (i : Instr) (es : List Event) (bytes : List Byte) (ps : List HostAct), s.sched = .host :: es ∧
      s.todo = [] ∧ s.program = .transmit bytes :: ps ∧ decode .tx bytes = .ok (i, [])) ∧
    (∃ (s : State) (i : Instr) (es : List Event) (bytes rest : List Byte), s.sched = .rxBurst bytes :: es ∧
      decode .rx bytes = .ok (i, rest)) :=
  ⟨⟨hostSt (blk .idle []) [] [.request 0x2D#8], .decode 13#4, [], 0x2D#8, [], by decide⟩,
    ⟨hostSt (blk .idle []) [] [.writeReg 0 0x10#8], .skip, [], 0x10#8, [], by decide⟩,
    ⟨hostSt (blk .idle []) [.request 0x40#8] [], .flush, [], 0x40#8, [], by decide⟩,
    ⟨hostSt (blk .idle []) [] [.transmit (frameOf .wake)], .cmdWake, [], frameOf .wake, [], by decide⟩,
    ⟨{ State.reset with sched := [.rxBurst f04] }, .mframe [0xE100#16] 0x0174#16, [], f04, [], by decide⟩⟩

theorem witness_StepRunsTheMicroStep :
    (∃ (s : State) (k : Block) (es : List Event), s.block.micro = .ok k ∧ s.sched = .block :: es) ∧
    (∃ (s : State) (k : Block), s.block.micro = .ok k ∧ s.sched = [] ∧ s.block.microEnabled = true) :=
  ⟨⟨{ st (blk .skip []) with sched := [.block] }, blk .idle [], [], rfl, rfl⟩, ⟨st (blk .skip []), blk .idle [], rfl, rfl, rfl⟩⟩

theorem witness_RequestWaitsWhileBusy :
    (∃ (s : State) (i : Instr), s.block.phase ≠ .idle ∧ i.channel = .opreq) ∧
    (∃ (s : State) (es : List Event) (w : Byte) (ps : List HostAct), s.block.phase ≠ .idle ∧ s.sched = .host :: es ∧
      s.todo = [] ∧ s.program = .request w :: ps) ∧
    (∃ (s : State) (es : List Event) (w : Byte) (ps : List HostAct), s.block.phase ≠ .idle ∧ s.sched = .host :: es ∧
      s.todo = [] ∧ s.program = .writeReg 0 w :: ps) ∧
    (∃ (s : State) (es : List Event) (w : Byte) (acts : List SessionAct), s.block.phase ≠ .idle ∧ s.sched = .host :: es ∧
      s.todo = .request w :: acts) :=
  ⟨⟨st (blk .pay []), .flush, by decide⟩, ⟨hostSt (blk .skip []) [] [.request 0x2D#8], [], 0x2D#8, [], by decide⟩,
    ⟨hostSt (blk .skip []) [] [.writeReg 0 0x2D#8], [], 0x2D#8, [], by decide⟩,
    ⟨hostSt (blk .skip []) [.request 0x2D#8] [], [], 0x2D#8, [], by decide⟩⟩

theorem witness_ReservedWordsAreIgnored :
    (∃ (s : State) (op arg : BitVec 4) (ps : List HostAct) (es : List Event), s.sched = .host :: es ∧ s.todo = [] ∧
      s.program = .request (op ++ arg) :: ps ∧ s.block.phase = .idle ∧ op.toNat = 0) ∧
    (∃ (s : State) (op arg : BitVec 4) (ps : List HostAct) (es : List Event), s.sched = .host :: es ∧ s.todo = [] ∧
      s.program = .request (op ++ arg) :: ps ∧ s.block.phase = .idle ∧ op.toNat = 5) ∧
    (∃ (s : State) (op arg : BitVec 4) (ps : List HostAct) (es : List Event), s.sched = .host :: es ∧ s.todo = [] ∧
      s.program = .request (op ++ arg) :: ps ∧ s.block.phase = .idle ∧ (op.toNat = 1 ∨ op.toNat = 4) ∧ arg ≠ 0#4) ∧
    (∃ (s : State) (op arg : BitVec 4) (ps : List HostAct) (es : List Event), s.sched = .host :: es ∧ s.todo = [] ∧
      s.program = .request (op ++ arg) :: ps ∧ s.block.phase = .idle ∧ op.toNat = 2 ∧ arg.toNat = 14) ∧
    (∃ (s : State) (op arg : BitVec 4) (ps : List HostAct) (es : List Event), s.sched = .host :: es ∧ s.todo = [] ∧
      s.program = .request (op ++ arg) :: ps ∧ s.block.phase = .idle ∧ op.toNat = 3 ∧ arg.toNat = 6) ∧
    (∃ (s : State) (op arg : BitVec 4) (ps : List HostAct) (es : List Event), s.sched = .host :: es ∧ s.todo = [] ∧
      s.program = .writeReg 0 (op ++ arg) :: ps ∧ s.block.phase = .idle ∧ op.toNat = 15) :=
  ⟨⟨hostSt (blk .idle []) [] [.request 0x00#8], 0#4, 0#4, [], [], by decide⟩,
    ⟨hostSt (blk .idle []) [] [.request 0x50#8], 5#4, 0#4, [], [], by decide⟩,
    ⟨hostSt (blk .idle []) [] [.request 0x41#8], 4#4, 1#4, [], [], by decide⟩,
    ⟨hostSt (blk .idle []) [] [.request 0x2E#8], 2#4, 14#4, [], [], by decide⟩,
    ⟨hostSt (blk .idle []) [] [.request 0x36#8], 3#4, 6#4, [], [], by decide⟩,
    ⟨hostSt (blk .idle []) [] [.writeReg 0 0xF0#8], 15#4, 0#4, [], [], by decide⟩⟩

/-- V16b's block: the payload of F5 is complete with `n = 3`, and no checksum byte has come. -/
def waitingBlock : Block :=
  { blk .chkh [] with nreq := 3#4, nval := 3#4, pos := 26#6, len := 28#16, sum := 0x02F1#16 }

theorem waitingBlock_legal : waitingBlock.Legal :=
  ⟨Nat.zero_le _, by decide, by decide, by decide, fun h => absurd h (by decide), fun _ => by decide⟩

theorem waitingBlock_parsing : waitingBlock.Parsing := ⟨fun _ => by decide, fun _ => by decide, fun _ => by decide⟩

theorem witness_InvariantIsKeptByEveryStep : ∃ s t : State, s.Inv ∧ step s = .next t :=
  ⟨st waitingBlock, { st waitingBlock with block := { waitingBlock with status := .readError, phase := .idle } },
    ⟨waitingBlock_legal, waitingBlock_parsing⟩, rfl⟩

theorem witness_NoStepStops : ∃ s : State, s.block.Legal := ⟨st waitingBlock, waitingBlock_legal⟩

theorem witness_TimeoutFallsOnlyInTheTail : ∃ k : Block, k.Legal ∧ k.Parsing ∧ k.waiting = true :=
  ⟨waitingBlock, waitingBlock_legal, waitingBlock_parsing, by decide⟩

theorem witness_SumNeverWrapsDuringDecode : ∃ k : Block, k.Legal ∧ k.Parsing ∧ k.phase.decoding = true :=
  ⟨waitingBlock, waitingBlock_legal, waitingBlock_parsing, by decide⟩

/-- A waiting DECODE with arrivals that recur, a DECODE with nothing scheduled or recurring, a SKIP with a recurring timeout. -/
theorem witness_OperationsEnd :
    (∃ s : State, s.block.Legal ∧ s.block.phase ≠ .idle ∧ s.sched = [] ∧ s.recurring = []) ∧
    (∃ s : State, s.block.Legal ∧ s.block.phase = .chkh ∧ s.recurring = [.rxPush 0x42#8]) ∧
    (∃ s : State, s.block.Legal ∧ s.block.phase = .skip ∧ s.recurring ≠ [] ∧ ∀ e ∈ s.recurring, e.arrives = false) :=
  ⟨⟨st waitingBlock, waitingBlock_legal, by decide, by decide, by decide⟩,
    ⟨{ st waitingBlock with recurring := [.rxPush 0x42#8] }, waitingBlock_legal, by decide, by decide⟩,
    ⟨{ st { waitingBlock with phase := .skip } with recurring := [.rxTimeout] },
      ⟨Nat.zero_le _, by decide, by decide, by decide, fun h => absurd h (by decide), fun h => absurd h (by decide)⟩,
      by decide, by decide, by decide⟩⟩

theorem witness_StatusIsWrittenOnlyWhenADecodeEnds :
    (∃ s t : State, s.sched.head? ≠ some .reset ∧ step s = .next t ∧ t.block.status ≠ s.block.status ∧
      s.block.phase = .chkh) ∧
    (∃ s t : State, s.sched.head? ≠ some .reset ∧ step s = .next t ∧ t.block.status ≠ s.block.status ∧
      s.block.phase = .idle ∧ s.requests 0x2D#8) :=
  ⟨⟨st waitingBlock, { st waitingBlock with block := { waitingBlock with status := .readError, phase := .idle } },
      by decide, rfl, by decide, by decide⟩,
    ⟨hostSt Block.reset [] [.writeReg 0 0x2D#8], st { Block.reset with status := .noData },
      by decide, rfl, by decide, by decide, rfl, .inr ⟨rfl, [], .inr rfl⟩⟩⟩

/-- The first wanted field completes. -/
def storingBlock : Block := { blk .pay [0x05#8] with len := 4#16, pos := 1#6, nreq := 1#4 }

theorem witness_RecordIsWrittenOnlyInThePayloadPhase :
    ∃ s t : State, s.sched.head? ≠ some .reset ∧ step s = .next t ∧ t.block.record ≠ s.block.record :=
  ⟨st storingBlock, st { blk .chkh [] with
      len := 4#16, pos := 2#6, nreq := 1#4, nval := 1#4, sum := 5#16
      record := (Vector.replicate 13 0#16).setIfInBounds 0 5#16 }, by decide, rfl, by decide⟩

theorem witness_TransmitBufferIsWrittenOnlyByEncode :
    ∃ s t : State, s.sched.head? ≠ some .reset ∧ step s = .next t ∧ t.block.txvalid ≠ s.block.txvalid ∧
      s.requests 0x35#8 :=
  ⟨hostSt { Block.reset with txvalid := true } [] [.request 0x35#8], State.reset, by decide, rfl, by decide,
    rfl, .inr ⟨rfl, [], .inl rfl⟩⟩

theorem witness_QueueIsFirstInFirstOut :
    (∃ s t : State, step s = .next t ∧ s.nextEvent = .rxPush 0x42#8 ∧ t.block.rxq ≠ s.block.rxq) ∧
    (∃ s t : State, step s = .next t ∧ s.block.phase ≠ .idle ∧ s.block.rxq = [0x42#8] ∧ t.block.rxq = []) ∧
    (∃ s t : State, step s = .next t ∧ s.block.phase = .idle ∧ s.requests 0x40#8 ∧ s.block.rxq = f04 ∧ t.block.rxq = []) ∧
    (∃ s t : State, step s = .next t ∧ s.nextEvent = .reset ∧ s.block.rxq = f04 ∧ t.block.rxq = []) :=
  ⟨⟨{ State.reset with sched := [.rxPush 0x42#8] }, st (blk .idle [0x42#8]), rfl, rfl, by decide⟩,
    ⟨st (blk .sig0 [0x42#8]), st { blk .sig1 [] with sum := 0x42#16 }, rfl, by decide, by decide, by decide⟩,
    ⟨hostSt (blk .idle f04) [.request 0x40#8] [], State.reset, rfl, rfl, ⟨rfl, .inl ⟨[], rfl⟩⟩, rfl, rfl⟩,
    ⟨{ st (blk .idle f04) with sched := [.reset] }, (st (blk .idle f04)).resetBlock, rfl, rfl, rfl, rfl⟩⟩

/-- The gaps of the register map: 0, 8 and 15, 29 and 31, 39. -/
theorem witness_RegisterMapReads :
    (∃ k : Block, k.rxq.length < 65536) ∧
    (∀ n ∈ [0, 0x08, 0x0F, 0x1D, 0x1F, 0x27], n = 0 ∨ 0x07 < n ∧ n < 0x10 ∨ 0x1C < n ∧ n < 0x20 ∨ 0x26 < n) :=
  ⟨⟨blk .idle [], by decide⟩, by decide⟩

theorem witness_HostAccessHasNoSideEffect :
    (∃ (s : State) (ps : List HostAct) (es : List Event) (n : Nat) (v : Word), s.sched = .host :: es ∧ s.todo = [] ∧
      s.program = .readReg n :: ps ∧ s.block.readReg n = some v) ∧
    (∃ (s : State) (ps : List HostAct) (es : List Event) (n : Nat), s.sched = .host :: es ∧ s.todo = [] ∧
      s.program = .readReg n :: ps ∧ s.block.readReg n = none) ∧
    (∃ (s : State) (ps : List HostAct) (es : List Event) (n : Nat) (w : Byte), s.sched = .host :: es ∧ s.todo = [] ∧
      s.program = .writeReg n w :: ps ∧ n ≠ 0) :=
  ⟨⟨hostSt (blk .chkl []) [] [.readReg 0x07], [], [], 0x07, 8#16, by decide⟩,
    ⟨hostSt (blk .idle []) [] [.readReg 0x00], [], [], 0x00, by decide⟩,
    ⟨hostSt (blk .idle []) [] [.writeReg 0x01 0xFF#8], [], [], 0x01, 0xFF#8, by decide⟩⟩

/-! ### Witnesses: the session -/

/-- Configuration A of P5, with a reset line beside it. -/
def pinned : Session := { Session.initial with resetPin := some 6#8, sleepPin := some 7#8 }

theorem witness_ModeUpdateFollowsTheTable :
    ∃ (s : State) (c : Command) (acts : List SessionAct) (es : List Event), s.sched = .host :: es ∧ s.todo = .update c :: acts :=
  ⟨hostSt Block.reset [.update .wake, .markSent] [], .wake, [.markSent], [], by decide⟩

/-- P4 step 3: three of five bytes go out. -/
theorem witness_ShortWriteFailsAndKeepsBeliefs :
    (∃ (s : State) (start count m : Nat) (acts : List SessionAct) (es : List Event), s.sched = .hostWrite m :: es ∧
      s.todo = .write start count :: acts ∧ start + count ≤ 7 ∧ m < count) ∧
    (∃ (s : State) (m : Nat) (es : List Event) (bytes : List Byte) (ps : List HostAct), s.sched = .hostWrite m :: es ∧
      s.todo = [] ∧ s.program = .transmit bytes :: ps ∧ m < bytes.length) ∧
    (∃ (s : State) (m : Nat) (es : List Event) (bytes : List Byte) (ps : List HostAct), s.sched = .hostWrite m :: es ∧
      s.todo = [] ∧ s.program = .transmit bytes :: ps ∧ m = bytes.length) :=
  ⟨⟨{ State.reset with sched := [.hostWrite 3], todo := [.write 0 5] }, 0, 5, 3, [], [], by decide⟩,
    ⟨callSt Session.initial (.transmit (frameOf .sleep)) [.hostWrite 6], 6, [], frameOf .sleep, [], by decide⟩,
    ⟨callSt Session.initial (.transmit (frameOf .sleep)) [.hostWrite 7], 7, [], frameOf .sleep, [], by decide⟩⟩

theorem witness_CommandWithoutMeansReturnsFalse :
    (∃ (s : State) (c : Command) (grace : Nat) (ps : List HostAct) (es : List Event), s.sched = .host :: .host :: es ∧
      s.todo = [] ∧ s.program = .sendCommand c grace :: ps ∧ s.session.attached = false) ∧
    (∃ (s : State) (c : Command) (grace : Nat) (ps : List HostAct) (es : List Event), s.sched = .host :: .host :: es ∧
      s.todo = [] ∧ s.program = .sendCommand c grace :: ps ∧ c = .reset ∧ s.session.resetPin = none) :=
  ⟨⟨callSt { Session.initial with attached := false } (.sendCommand .wake 5) [.host, .host], .wake, 5, [], [], by decide⟩,
    ⟨callSt Session.initial (.sendCommand .reset 0) [.host, .host], .reset, 0, [], [], by decide⟩⟩

theorem witness_ResetLinePulsesAndFlushes :
    (∃ (s : State) (p : Byte) (ps : List HostAct) (es : List Event), GraceWait 0 [] s.waitOk [] [] s.waitOk ∧
      s.sched = List.replicate 6 .host ++ [] ++ .host :: es ∧ s.todo = [] ∧ s.program = .sendCommand .reset 0 :: ps ∧
      s.block.phase = .idle ∧ s.session.attached = true ∧ s.session.resetPin = some p) ∧
    (∃ (s : State) (p : Byte) (ps : List HostAct) (es : List Event), GraceWait 9 [] s.waitOk [.waitExpires] [] false ∧
      s.sched = List.replicate 6 .host ++ [.waitExpires] ++ .host :: es ∧ s.todo = [] ∧
      s.program = .sendCommand .reset 9 :: ps ∧ s.block.phase = .idle ∧ s.session.attached = true ∧
      s.session.resetPin = some p) :=
  ⟨⟨callSt pinned (.sendCommand .reset 0) (List.replicate 7 .host), 6#8, [], [], .absent rfl, rfl, rfl, rfl, rfl, rfl, rfl⟩,
    ⟨callSt pinned (.sendCommand .reset 9) (List.replicate 6 .host ++ [.waitExpires, .host]), 6#8, [], [],
      .expires (by decide) rfl, rfl, rfl, rfl, rfl, rfl, rfl⟩⟩

theorem witness_SleepLineReplacesTheFrame :
    (∃ (s : State) (p : Byte) (ps : List HostAct) (es : List Event) (grace : Nat), s.sched = List.replicate 4 .host ++ es ∧
      s.todo = [] ∧ s.session.attached = true ∧ s.session.sleepPin = some p ∧ s.program = .sendCommand .sleep grace :: ps) ∧
    (∃ (s : State) (p : Byte) (ps : List HostAct) (es : List Event), GraceWait 0 s.block.rxq s.waitOk [] [] false ∧
      s.sched = List.replicate 3 .host ++ [] ++ .host :: es ∧ s.todo = [] ∧ s.session.attached = true ∧
      s.session.sleepPin = some p ∧ s.program = .sendCommand .wake 0 :: ps) ∧
    (∃ (s : State) (p : Byte) (ps : List HostAct) (es : List Event), GraceWait 9 s.block.rxq s.waitOk [.host] f04 true ∧
      s.sched = List.replicate 3 .host ++ [.host] ++ .host :: es ∧ s.todo = [] ∧ s.session.attached = true ∧
      s.session.sleepPin = some p ∧ s.program = .sendCommand .wake 9 :: ps) :=
  ⟨⟨callSt pinned (.sendCommand .sleep 9) (List.replicate 4 .host), 7#8, [], [], 9, rfl, rfl, rfl, rfl, rfl⟩,
    ⟨callSt pinned (.sendCommand .wake 0) (List.replicate 4 .host), 7#8, [], [], .absent rfl, rfl, rfl, rfl, rfl, rfl⟩,
    ⟨{ callSt pinned (.sendCommand .wake 9) (List.replicate 5 .host) with block := blk .idle f04 }, 7#8, [], [],
      .fulfilled (by decide) (by decide), rfl, rfl, rfl, rfl, rfl⟩⟩

theorem witness_AcknowledgedCommandIsSent :
    (∃ (s : State) (c : Command) (ps : List HostAct) (es : List Event),
      GraceWait (if c = .wake then 9 else 0) [] false [] [] false ∧
      s.sched = List.replicate 5 .host ++ [.waitExpires, .host] ++ [] ++ List.replicate 3 .host ++ es ∧ s.todo = [] ∧
      s.program = .sendCommand c 9 :: ps ∧ s.block.phase = .idle ∧ s.session.attached = true ∧ c = .setPassive) ∧
    (∃ (s : State) (c : Command) (ps : List HostAct) (es : List Event) (b : Byte),
      GraceWait (if c = .wake then 9 else 0) [] false [.rxPush b, .host] [b] true ∧
      s.sched = List.replicate 5 .host ++ [.waitExpires, .host] ++ [.rxPush b, .host] ++ List.replicate 3 .host ++ es ∧
      s.todo = [] ∧ s.program = .sendCommand c 9 :: ps ∧ s.block.phase = .idle ∧ s.session.attached = true ∧
      (c = .sleep ∨ c = .wake) ∧ s.session.sleepPin = none) :=
  ⟨⟨callSt Session.initial (.sendCommand .setPassive 9)
      (List.replicate 5 .host ++ [.waitExpires] ++ List.replicate 4 .host), .setPassive, [], [], .absent rfl,
      rfl, rfl, rfl, rfl, rfl, rfl⟩,
    ⟨callSt Session.initial (.sendCommand .wake 9)
      (List.replicate 5 .host ++ [.waitExpires, .host, .rxPush 0x42#8] ++ List.replicate 4 .host), .wake, [], [], 0x42#8,
      .arrives (by decide) rfl _, rfl, rfl, rfl, rfl, rfl, .inr rfl, rfl⟩⟩

theorem witness_UnacknowledgedCommandIsSent :
    ∃ (s : State) (c : Command) (grace : Nat) (ps : List HostAct) (es : List Event),
      s.sched = List.replicate 7 .host ++ es ∧ s.todo = [] ∧ s.program = .sendCommand c grace :: ps ∧
      s.block.phase = .idle ∧ s.session.attached = true ∧ (c = .readData ∨ c = .setActive) :=
  ⟨callSt Session.initial (.sendCommand .setActive 0) (List.replicate 7 .host), .setActive, 0, [], [], rfl, rfl, rfl, rfl, rfl,
    .inr rfl⟩

theorem witness_ReadMeasurementReturnsTheStatus :
    (∃ (s : State) (es : List Event) (n : Fin 14) (ps : List HostAct), s.sched = .host :: es ∧ s.todo = [] ∧
      s.program = .readMeasurement n :: ps ∧ s.session.attached = true) ∧
    (∃ (s : State) (es : List Event) (acts : List SessionAct), s.sched = .host :: es ∧ s.todo = .await :: acts) ∧
    (∃ (s : State) (es : List Event) (n : Fin 14) (ps : List HostAct), s.sched = .host :: es ∧ s.todo = [] ∧
      s.program = .readMeasurement n :: ps ∧ s.session.attached = false) ∧
    (∃ (s : State) (es : List Event) (acts : List SessionAct), s.sched = .host :: es ∧ s.todo = .finishRead :: acts ∧
      s.block.status = .ok) ∧
    (∃ (s : State) (es : List Event) (acts : List SessionAct), s.sched = .host :: es ∧ s.todo = .finishRead :: acts ∧
      s.block.status ≠ .ok) :=
  ⟨⟨callSt Session.initial (.readMeasurement 13) [.host], [], 13, [], by decide⟩,
    ⟨hostSt (blk .skip []) [.await] [], [], [], by decide⟩,
    ⟨callSt { Session.initial with attached := false } (.readMeasurement 13) [.host], [], 13, [], by decide⟩,
    ⟨hostSt Block.reset [.finishRead] [], [], [], by decide⟩,
    ⟨hostSt { Block.reset with status := .sumError } [.finishRead] [], [], [], by decide⟩⟩

theorem witness_BoundedWaitAnswersAvailability :
    (∃ (s : State) (need : Nat) (atOnce : Bool) (acts : List SessionAct) (es : List Event),
      s.todo = .wait need atOnce :: acts ∧ s.sched = .host :: es ∧ need ≤ s.block.rxq.length) ∧
    (∃ (s : State) (need : Nat) (atOnce : Bool) (acts : List SessionAct) (es : List Event),
      s.todo = .wait need atOnce :: acts ∧ s.sched = .host :: es ∧ s.block.rxq.length < need ∧ atOnce = true) ∧
    (∃ (s : State) (need : Nat) (atOnce : Bool) (acts : List SessionAct) (es : List Event),
      s.todo = .wait need atOnce :: acts ∧ s.sched = .host :: es ∧ s.block.rxq.length < need ∧ atOnce = false) ∧
    (∃ (s : State) (need : Nat) (atOnce : Bool) (acts : List SessionAct) (es : List Event),
      s.todo = .wait need atOnce :: acts ∧ s.sched = .waitExpires :: es ∧ s.block.rxq.length < need) ∧
    (∃ (s : State) (need : Nat) (atOnce : Bool) (acts : List SessionAct) (es : List Event),
      s.todo = .wait need atOnce :: acts ∧ s.sched = .waitExpires :: es ∧ need ≤ s.block.rxq.length) ∧
    (∃ (s : State) (d : Nat) (ps : List HostAct) (es : List Event), s.todo = [] ∧ s.program = .waitForData d :: ps ∧
      s.sched = List.replicate 3 .host ++ es ∧ 1 ≤ s.block.rxq.length) ∧
    (∃ (s : State) (d : Nat) (ps : List HostAct) (es : List Event), s.todo = [] ∧ s.program = .waitForAck d :: ps ∧
      s.sched = List.replicate 3 .host ++ es ∧ d = 0 ∧ s.block.rxq.length < Config.ackBytes) ∧
    (∃ (s : State) (d polls : Nat) (ps : List HostAct) (es : List Event), s.todo = [] ∧ s.program = .waitForAck d :: ps ∧
      s.sched = .host :: List.replicate polls .host ++ [.waitExpires, .host] ++ es ∧ 0 < d ∧
      s.block.rxq.length < Config.ackBytes) :=
  ⟨⟨hostSt (blk .idle [0x42#8]) [.wait 1 false] [], 1, false, [], [], by decide⟩,
    ⟨hostSt (blk .idle []) [.wait 1 true] [], 1, true, [], [], by decide⟩,
    ⟨hostSt (blk .idle []) [.wait 1 false] [], 1, false, [], [], by decide⟩,
    ⟨{ hostSt (blk .idle []) [.wait 1 false] [] with sched := [.waitExpires] }, 1, false, [], [], by decide⟩,
    ⟨{ hostSt (blk .idle [0x42#8]) [.wait 1 false] [] with sched := [.waitExpires] }, 1, false, [], [], by decide⟩,
    ⟨{ callSt Session.initial (.waitForData 9) (List.replicate 3 .host) with block := blk .idle [0x42#8] }, 9, [], [], by decide⟩,
    ⟨callSt Session.initial (.waitForAck 0) (List.replicate 3 .host), 0, [], [], rfl, rfl, rfl, rfl, Nat.succ_pos _⟩,
    ⟨callSt Session.initial (.waitForAck 9) [.host, .host, .waitExpires, .host], 9, 1, [], [], rfl, rfl, rfl, by decide,
      Nat.succ_pos _⟩⟩

theorem witness_AcknowledgementIsDroppedAsOneFrame :
    (∃ (s : State) (acts : List SessionAct) (es : List Event), s.sched = .host :: es ∧ s.todo = .dropAck :: acts ∧
      s.waitOk = true) ∧
    (∃ (s : State) (acts : List SessionAct) (es : List Event), s.sched = .host :: es ∧ s.todo = .dropAck :: acts ∧
      s.waitOk = false) :=
  ⟨⟨{ hostSt Block.reset [.dropAck] [] with waitOk := true }, [], [], by decide⟩,
    ⟨hostSt Block.reset [.dropAck] [], [], [], by decide⟩⟩

theorem witness_BeliefsChangeOnlyByTheSession :
    (∃ s t : State, step s = .next t ∧ t.session.modeActive ≠ s.session.modeActive) ∧
    (∃ s t : State, step s = .next t ∧ t.session.hasReceivedData ≠ s.session.hasReceivedData) ∧
    (∃ s t : State, step s = .next t ∧ t.session.hasSentCommand ≠ s.session.hasSentCommand) :=
  ⟨⟨hostSt Block.reset [.update .setPassive] [],
      { State.reset with session := { Session.initial with modeActive := .no } }, rfl, by decide⟩,
    ⟨hostSt Block.reset [.finishRead] [],
      { State.reset with
        session := { Session.initial with hasReceivedData := true }, result := some (.status .ok) }, rfl, by decide⟩,
    ⟨hostSt Block.reset [.markSent] [],
      { State.reset with session := { Session.initial with hasSentCommand := true } }, rfl, by decide⟩⟩

theorem witness_IsWorkingNeedsBothFlags :
    ∃ (s : State) (ps : List HostAct) (es : List Event), s.sched = .host :: es ∧ s.todo = [] ∧ s.program = .isWorking :: ps :=
  ⟨callSt Session.initial .isWorking [.host], [], [], by decide⟩

theorem witness_EndlessArrivalsKeepASkipRunning :
    ∃ (s : State) (bytes : List Byte), s.block.phase = .skip ∧ s.block.rxq ≠ [] ∧ (∀ b ∈ s.block.rxq, b ≠ 0x42#8) ∧
      s.sched = [] ∧ s.recurring = bytes.map Event.rxPush ∧ bytes ≠ [] ∧ ∀ b ∈ bytes, b ≠ 0x42#8 :=
  ⟨{ st (blk .skip [0x00#8]) with recurring := [.rxPush 0xFF#8] }, [0xFF#8], by decide⟩

end Sys2Proof.Tests
end

section
/-! PROOF. The branching operations of SKIP and DECODE, inverted, and what a micro-step, a timeout and the request step of a
DECODE leave of `STATUS`, `REC` and the transmit registers. -/

namespace Sys2Proof.Machine

/-! ### The branching operations, inverted -/

/-- SKIP ends on the byte it keeps, or on nothing, or discards one byte (R131). -/
theorem skipStep_cases (k : Block) :
    skipStep k = { k with phase := .idle } ∨ ∃ b q, k.rxq = b :: q ∧ skipStep k = { k with rxq := q } := by
  unfold skipStep
  split
  · exact .inl rfl
  · rename_i b q hq
    split
    · exact .inl rfl
    · exact .inr ⟨b, q, hq, rfl⟩

/-- The second signature byte is right or ends the DECODE (R154). -/
theorem sig1Byte_cases (b : Byte) (k : Block) :
    sig1Byte b k = { k.addSum b with phase := .lenh } ∨ sig1Byte b k = (k.addSum b).raise .readError := by
  unfold sig1Byte
  split
  · exact .inl rfl
  · exact .inr rfl

/-- The three ways the length check goes (R157). -/
theorem lenlByte_cases (b : Byte) (k : Block) :
    lenlByte b k = ({ k.addSum b with len := be16 k.hold b } : Block).raise .frameLengthMismatch ∨
    (be16 k.hold b = 2#16 ∧
      lenlByte b k = { k.addSum b with len := be16 k.hold b, pos := 0#6, phase := .chkh }) ∨
    ((be16 k.hold b).toNat % 2 = 0 ∧ 4 ≤ (be16 k.hold b).toNat ∧ (be16 k.hold b).toNat ≤ 56 ∧
      lenlByte b k = { k.addSum b with len := be16 k.hold b, pos := 0#6, phase := .pay }) := by
  by_cases hbad : badLength k.nreq (be16 k.hold b) = true
  · exact .inl (if_pos hbad)
  · have hgood := hbad
    rw [badLength_iff, not_or, not_or] at hgood
    obtain ⟨heven, hzero, hmax⟩ := hgood
    by_cases h2 : be16 k.hold b = 2#16
    · exact .inr (.inl ⟨h2, (if_neg hbad).trans (if_pos h2)⟩)
    · have hzero' : (be16 k.hold b).toNat ≠ 0 := fun h => hzero (BitVec.eq_of_toNat_eq h)
      have h2' : (be16 k.hold b).toNat ≠ 2 := fun h => h2 (BitVec.eq_of_toNat_eq h)
      exact .inr (.inr ⟨by omega, by omega, by omega, (if_neg hbad).trans (if_neg h2)⟩)

/-- A timeout ends a waiting DECODE or changes nothing (R72). -/
theorem rxTimeout_cases (k : Block) :
    k.rxTimeout = k ∨ (k.phase.decoding = true ∧ k.rxTimeout = k.raise .readError) := by
  unfold Block.rxTimeout
  split
  · rename_i hw
    exact .inr ⟨((Bool.and_eq_true ..).mp hw).1, rfl⟩
  · exact .inl rfl

/-- The request step of a DECODE answers NoData or starts it (R151, R152). -/
theorem startDecode_cases (n : BitVec 4) (k : Block) :
    startDecode n k = k.raise .noData ∨
    (threshold n ≤ k.rxq.length ∧
      startDecode n k = { k with nreq := n, sum := 0#16, nval := 0#4, phase := .sig0 }) := by
  unfold startDecode
  split
  · exact .inl rfl
  · exact .inr ⟨Nat.not_lt.mp ‹_›, rfl⟩

/-! ### Which registers the operations leave alone -/

/-- A phase in which a byte is read is a phase of a DECODE. -/
theorem ByteStep.decoding {k p k' : Block} {b : Byte} (h : ByteStep k b p k') : k.phase.decoding = true := by
  cases h <;> simp [*, Phase.decoding]

/-- A payload byte leaves the status and the transmit registers alone. -/
theorem payByte_frame {b : Byte} {k k' : Block} (h : payByte b k = .ok k') :
    k'.status = k.status ∧ k'.txbuf = k.txbuf ∧ k'.txvalid = k.txvalid := by
  obtain ⟨-, rfl⟩ | ⟨-, -, -, rfl⟩ | ⟨-, -, rfl⟩ := payByte_cases h <;> exact ⟨rfl, rfl, rfl⟩

/-- A byte of a DECODE changes `STATUS` only where it ends the DECODE (R163). -/
theorem ByteStep.status {k p k' : Block} {b : Byte} (h : ByteStep k b p k') :
    k'.status = p.status ∨ k'.phase = .idle := by
  cases h with
  | sig0 => exact .inl rfl
  | sig1 => obtain e | e := sig1Byte_cases b p <;> simp [e]
  | lenh => exact .inl rfl
  | lenl => obtain e | ⟨-, e⟩ | ⟨-, -, -, e⟩ := lenlByte_cases b p <;> simp [e]
  | pay _ hk => exact .inl (payByte_frame hk).1
  | chkh => exact .inl rfl
  | chkl => exact .inr rfl

/-- A byte of a DECODE leaves the transmit registers alone. -/
theorem ByteStep.tx {k p k' : Block} {b : Byte} (h : ByteStep k b p k') :
    k'.txbuf = p.txbuf ∧ k'.txvalid = p.txvalid := by
  cases h with
  | sig0 => exact ⟨rfl, rfl⟩
  | sig1 => obtain e | e := sig1Byte_cases b p <;> simp [e]
  | lenh => exact ⟨rfl, rfl⟩
  | lenl => obtain e | ⟨-, e⟩ | ⟨-, -, -, e⟩ := lenlByte_cases b p <;> simp [e]
  | pay _ hk => exact (payByte_frame hk).2
  | chkh => exact ⟨rfl, rfl⟩
  | chkl => exact ⟨rfl, rfl⟩

/-- A byte of a DECODE leaves `REC` alone, but for the wanted field that a payload byte completes (R158). -/
theorem ByteStep.record {k p k' : Block} {b : Byte} (h : ByteStep k b p k') :
    k'.record = p.record ∨
    (k.phase = .pay ∧ p.fieldIndex < p.nreq.toNat ∧ ∃ v, k'.record = p.record.setIfInBounds p.fieldIndex v) := by
  cases h with
  | sig0 => exact .inl rfl
  | sig1 => obtain e | e := sig1Byte_cases b p <;> simp [e]
  | lenh => exact .inl rfl
  | lenl => obtain e | ⟨-, e⟩ | ⟨-, -, -, e⟩ := lenlByte_cases b p <;> simp [e]
  | pay hp hk =>
    obtain ⟨-, rfl⟩ | ⟨-, hwanted, -, rfl⟩ | ⟨-, -, rfl⟩ := payByte_cases hk
    · exact .inl rfl
    · exact .inr ⟨hp, hwanted, _, rfl⟩
    · exact .inl rfl
  | chkh => exact .inl rfl
  | chkl => exact .inl rfl

/-- A micro-step that changes `STATUS` ends a DECODE (R163). -/
theorem micro_status {k k' : Block} (h : k.micro = .ok k') :
    k'.status = k.status ∨ (k.phase.decoding = true ∧ k'.phase = .idle) := by
  obtain rfl | ⟨-, rfl⟩ | ⟨b, q, -, hb⟩ := micro_cases h
  · exact .inl rfl
  · obtain e | ⟨b, q, -, e⟩ := skipStep_cases k <;> simp [e]
  · exact hb.status.imp id fun hi => ⟨hb.decoding, hi⟩

/-- No micro-step touches the transmit registers (R32). -/
theorem micro_tx {k k' : Block} (h : k.micro = .ok k') : k'.txbuf = k.txbuf ∧ k'.txvalid = k.txvalid := by
  obtain rfl | ⟨-, rfl⟩ | ⟨b, q, -, hb⟩ := micro_cases h
  · exact ⟨rfl, rfl⟩
  · obtain e | ⟨b, q, -, e⟩ := skipStep_cases k <;> simp [e]
  · exact hb.tx

/-- A micro-step that changes `REC` stores one wanted payload field (R22, R158). -/
theorem micro_record {k k' : Block} (h : k.micro = .ok k') :
    k'.record = k.record ∨
    (k.phase = .pay ∧ k.fieldIndex < k.nreq.toNat ∧ ∃ v, k'.record = k.record.setIfInBounds k.fieldIndex v) := by
  obtain rfl | ⟨-, rfl⟩ | ⟨b, q, -, hb⟩ := micro_cases h
  · exact .inl rfl
  · obtain e | ⟨b, q, -, e⟩ := skipStep_cases k <;> simp [e]
  · exact hb.record

@[simp] theorem rxTimeout_record (k : Block) : k.rxTimeout.record = k.record := by
  obtain e | ⟨-, e⟩ := rxTimeout_cases k <;> simp [e]

@[simp] theorem rxTimeout_txbuf (k : Block) : k.rxTimeout.txbuf = k.txbuf := by
  obtain e | ⟨-, e⟩ := rxTimeout_cases k <;> simp [e]

@[simp] theorem rxTimeout_txvalid (k : Block) : k.rxTimeout.txvalid = k.txvalid := by
  obtain e | ⟨-, e⟩ := rxTimeout_cases k <;> simp [e]

@[simp] theorem startDecode_record (n : BitVec 4) (k : Block) : (startDecode n k).record = k.record := by
  obtain e | ⟨-, e⟩ := startDecode_cases n k <;> simp [e]

@[simp] theorem startDecode_txbuf (n : BitVec 4) (k : Block) : (startDecode n k).txbuf = k.txbuf := by
  obtain e | ⟨-, e⟩ := startDecode_cases n k <;> simp [e]

@[simp] theorem startDecode_txvalid (n : BitVec 4) (k : Block) : (startDecode n k).txvalid = k.txvalid := by
  obtain e | ⟨-, e⟩ := startDecode_cases n k <;> simp [e]

/-- A request step of a DECODE that changes `STATUS` ends it with NoData (R151). -/
theorem startDecode_status (n : BitVec 4) (k : Block) :
    (startDecode n k).status = k.status ∨
    ((startDecode n k).status = .noData ∧ (startDecode n k).phase = .idle) := by
  obtain e | ⟨-, e⟩ := startDecode_cases n k <;> simp [e]

end Sys2Proof.Machine
end

section
/-! PROOF. The legal register values and what holds of a DECODE in progress: kept by every byte of a DECODE, by every move
of the block and by `RESET`. -/

namespace Sys2Proof.Machine

/-- One addition to the sum adds at most 255 (R211). -/
theorem addByte_toNat_le (a : Word) (b : Byte) : (addByte a b).toNat ≤ a.toNat + 255 := by
  have hb := b.isLt
  have hmod := Nat.mod_le (a.toNat + b.toNat) 65536
  rw [addByte_toNat]
  omega

/-- Outside the payload and the checksum only the ranges of R20 are left to show. -/
theorem Block.Legal.of_ranges {k : Block} (hq : k.rxq.wf) (hnreq : k.nreq.toNat ≤ 13) (hnval : k.nval.toNat ≤ 13)
    (hpos : k.pos.toNat ≤ 54) (hpay : k.phase ≠ .pay) (hchkh : k.phase ≠ .chkh) (hchkl : k.phase ≠ .chkl) :
    k.Legal :=
  ⟨hq, hnreq, hnval, hpos, fun h => absurd h hpay, fun h => (h.elim hchkh hchkl).elim⟩

/-- Of a block without a DECODE in progress there is nothing to show but the ranges of R20. -/
theorem inv_of_not_decoding {k : Block} (hd : k.phase.decoding = false) (hq : k.rxq.wf) (hnreq : k.nreq.toNat ≤ 13)
    (hnval : k.nval.toNat ≤ 13) (hpos : k.pos.toNat ≤ 54) : k.Legal ∧ k.Parsing := by
  have hne : k.phase ≠ .pay ∧ k.phase ≠ .chkh ∧ k.phase ≠ .chkl := by
    refine ⟨?_, ?_, ?_⟩ <;> (intro h; simp [h, Phase.decoding] at hd)
  exact ⟨.of_ranges hq hnreq hnval hpos hne.1 hne.2.1 hne.2.2, by constructor <;> simp [hd]⟩

/-- Ending an operation keeps the invariant (R275). -/
theorem raise_inv {k : Block} (c : Status) (hq : k.rxq.wf) (hnreq : k.nreq.toNat ≤ 13) (hnval : k.nval.toNat ≤ 13)
    (hpos : k.pos.toNat ≤ 54) : (k.raise c).Legal ∧ (k.raise c).Parsing :=
  inv_of_not_decoding rfl hq hnreq hnval hpos

/-- A DECODE that consumes one byte, adding it to the sum or not, keeps what holds of it; `NVAL` is left to show. -/
theorem Block.Parsing.consume {k k' : Block} {b : Byte} {q : List Byte} (h : k.Parsing)
    (hd : k.phase.decoding = true) (hq : k.rxq = b :: q) (hrxq : k'.rxq = q) (hnreq : k'.nreq = k.nreq)
    (hconsumed : k'.consumed = k.consumed + 1)
    (hsum : k'.sum = addByte k.sum b ∧ k'.summed = k.summed + 1 ∨ k'.sum = k.sum ∧ k'.summed = k.summed)
    (hnval : k'.nval.toNat = k'.written) : k'.Parsing := by
  have hqueued := h.queued hd
  have hbound := h.sum hd
  refine ⟨fun _ => ?_, fun _ => ?_, fun _ => hnval⟩
  · rw [hq, List.length_cons] at hqueued
    rw [hrxq, hnreq, hconsumed]
    omega
  · obtain ⟨hs, hn⟩ | ⟨hs, hn⟩ := hsum
    · have := addByte_toNat_le k.sum b
      rw [hs, hn]
      omega
    · rw [hs, hn]
      exact hbound

/-- A header byte before the length check keeps the invariant: it is consumed and summed, and nothing is written yet (R153
to R155). -/
theorem headerByte_inv {k : Block} {b h : Byte} {q : List Byte} {p : Phase} (hl : k.Legal) (hp : k.Parsing)
    (hq : k.rxq = b :: q) (hw : Memory.wf q)
    (hphases : k.phase = .sig0 ∧ p = .sig1 ∨ k.phase = .sig1 ∧ p = .lenh ∨ k.phase = .lenh ∧ p = .lenl) :
    ({ k.addSum b with rxq := q, hold := h, phase := p } : Block).Legal ∧
      ({ k.addSum b with rxq := q, hold := h, phase := p } : Block).Parsing := by
  have hd : k.phase.decoding = true := by
    obtain ⟨hph, -⟩ | ⟨hph, -⟩ | ⟨hph, -⟩ := hphases <;> (rw [hph]; rfl)
  have hnval := hp.nval hd
  obtain ⟨hph, rfl⟩ | ⟨hph, rfl⟩ | ⟨hph, rfl⟩ := hphases
  all_goals
    exact ⟨.of_ranges hw hl.nreq hl.nval hl.pos (by simp) (by simp) (by simp),
      hp.consume hd hq rfl rfl (by simp [Block.consumed, Block.summed, hph]) (.inl ⟨rfl, by simp [Block.summed, hph]⟩)
        (by simpa [Block.written, hph] using hnval)⟩

/-- The length check keeps the invariant: it lets the legal lengths through (R157). -/
theorem lenlByte_inv {k : Block} {b : Byte} {q : List Byte} (hl : k.Legal) (hp : k.Parsing) (hph : k.phase = .lenl)
    (hq : k.rxq = b :: q) (hw : Memory.wf q) :
    (lenlByte b { k with rxq := q }).Legal ∧ (lenlByte b { k with rxq := q }).Parsing := by
  have hd : k.phase.decoding = true := by rw [hph]; rfl
  have hnval := hp.nval hd
  simp only [Block.written, hph] at hnval
  obtain e | ⟨h2, e⟩ | ⟨heven, h4, h56, e⟩ := lenlByte_cases b { k with rxq := q }
  · rw [e]
    exact raise_inv _ hw hl.nreq hl.nval hl.pos
  · rw [e, h2]
    refine ⟨⟨hw, hl.nreq, hl.nval, Nat.zero_le _, by simp, fun _ => by simp⟩, ?_⟩
    exact hp.consume hd hq rfl rfl (by simp [Block.consumed, Block.summed, hph])
      (.inl ⟨rfl, by simp [Block.summed, hph]⟩) (by simp [Block.written, hnval])
  · rw [e]
    have hroom : 0 < (be16 k.hold b).toNat - 2 := Nat.sub_pos_of_lt (Nat.lt_of_lt_of_le (by decide) h4)
    refine ⟨⟨hw, hl.nreq, hl.nval, Nat.zero_le _, fun _ => ⟨heven, h56, hroom⟩, by simp⟩, ?_⟩
    exact hp.consume hd hq rfl rfl (by simp [Block.consumed, Block.summed, hph])
        (.inl ⟨rfl, by simp [Block.summed, hph]⟩) (by simp [Block.written, hnval])

/-- A payload byte keeps the invariant, whatever it does to `HOLD`, `REC` and `NVAL`, as long as `NVAL` counts the complete
wanted fields (R158): the first byte of a field is never the last of the payload, because the payload is even. -/
theorem advancePayload_inv {k k' : Block} {b : Byte} {q : List Byte} (hl : k.Legal) (hp : k.Parsing)
    (hph : k.phase = .pay) (hq : k.rxq = b :: q) (hw : Memory.wf q)
    (hframe : k' = { advancePayload b { k with rxq := q } with hold := k'.hold, record := k'.record, nval := k'.nval })
    (hnval : k'.nval.toNat = min ((k.pos.toNat + 1) / 2) k.nreq.toNat) : k'.Legal ∧ k'.Parsing := by
  have hd : k.phase.decoding = true := by rw [hph]; rfl
  obtain ⟨heven, h56, hlt⟩ := hl.pay hph
  have hbound := hl.nreq
  have hrxq : k'.rxq = q := congrArg Block.rxq hframe
  have hnreq : k'.nreq = k.nreq := (congrArg Block.nreq hframe :)
  have hlen : k'.len = k.len := (congrArg Block.len hframe :)
  have hsum : k'.sum = addByte k.sum b := congrArg Block.sum hframe
  have hphase : k'.phase = if k.atLastPayloadByte then .chkh else .pay := congrArg Block.phase hframe
  have hpos : k'.pos.toNat = k.pos.toNat + 1 := by
    rw [show k'.pos = k.pos + 1#6 from congrArg Block.pos hframe, BitVec.toNat_add, BitVec.toNat_ofNat]
    omega
  by_cases hlast : k.pos.toNat + 1 = k.len.toNat - 2
  · replace hphase := hphase.trans (if_pos (decide_eq_true hlast))
    have hlegal : k'.Legal := by
      refine ⟨hrxq ▸ hw, hnreq ▸ hbound, by omega, by omega, by simp [hphase], fun _ => ?_⟩
      rw [hlen, hpos]
      omega
    refine ⟨hlegal, hp.consume hd hq hrxq hnreq ?_ (.inl ⟨hsum, ?_⟩) ?_⟩
    · simp only [Block.consumed, Block.summed, hphase, hph, hlen]; omega
    · simp only [Block.summed, hphase, hph, hlen]; omega
    · simp only [Block.written, hphase, hlen, hnreq, hnval, hlast]
  · replace hphase := hphase.trans (if_neg fun h => hlast (of_decide_eq_true h))
    have hlegal : k'.Legal := by
      refine ⟨hrxq ▸ hw, hnreq ▸ hbound, by omega, by omega, fun _ => ?_, by simp [hphase]⟩
      rw [hlen, hpos]
      omega
    refine ⟨hlegal, hp.consume hd hq hrxq hnreq ?_ (.inl ⟨hsum, ?_⟩) ?_⟩
    · simp only [Block.consumed, Block.summed, hphase, hph, hpos]; omega
    · simp only [Block.summed, hphase, hph, hpos]; omega
    · simp only [Block.written, hphase, hpos, hnreq, hnval]

/-- A payload byte keeps the invariant (R158). -/
theorem payByte_inv {k k' : Block} {b : Byte} {q : List Byte} (hl : k.Legal) (hp : k.Parsing) (hph : k.phase = .pay)
    (hq : k.rxq = b :: q) (hw : Memory.wf q) (h : payByte b { k with rxq := q } = .ok k') : k'.Legal ∧ k'.Parsing := by
  have hnval : k.nval.toNat = min (k.pos.toNat / 2) k.nreq.toNat := by
    rw [hp.nval (by rw [hph]; rfl), Block.written, hph]
  obtain ⟨hhigh, rfl⟩ | ⟨hlow, hwanted, hfield, rfl⟩ | ⟨hlow, hunwanted, rfl⟩ := payByte_cases h
  · have hparity : k.pos.toNat % 2 = 0 := of_decide_eq_true hhigh
    refine advancePayload_inv hl hp hph hq hw rfl (hnval.trans ?_)
    omega
  · have hparity : ¬ k.pos.toNat % 2 = 0 := of_decide_eq_false hlow
    simp only [Block.fieldIndex] at hwanted hfield
    refine advancePayload_inv hl hp hph hq hw rfl ?_
    simp only [Block.fieldIndex, BitVec.toNat_ofNat]
    omega
  · simp only [Block.fieldIndex] at hunwanted
    refine advancePayload_inv hl hp hph hq hw rfl (hnval.trans ?_)
    omega

/-- Every byte of a DECODE keeps the invariant (R153 to R160). -/
theorem byteStep_inv {k k' : Block} {b : Byte} {q : List Byte} (hl : k.Legal) (hp : k.Parsing) (hq : k.rxq = b :: q)
    (h : ByteStep k b { k with rxq := q } k') : k'.Legal ∧ k'.Parsing := by
  have hw : Memory.wf q := tail_wf (hq ▸ hl.queue)
  have hd := h.decoding
  have hnval := hp.nval hd
  cases h with
  | sig0 hph => exact headerByte_inv (k := k) hl hp hq hw (.inl ⟨hph, rfl⟩)
  | sig1 hph =>
    obtain e | e := sig1Byte_cases b { k with rxq := q }
    · rw [e]
      exact headerByte_inv (k := k) hl hp hq hw (.inr (.inl ⟨hph, rfl⟩))
    · rw [e]
      exact raise_inv _ hw hl.nreq hl.nval hl.pos
  | lenh hph => exact headerByte_inv (k := k) hl hp hq hw (.inr (.inr ⟨hph, rfl⟩))
  | lenl hph => exact lenlByte_inv hl hp hph hq hw
  | pay hph hk => exact payByte_inv hl hp hph hq hw hk
  | chkh hph =>
    refine ⟨⟨hw, hl.nreq, hl.nval, hl.pos, by simp [chkhByte], fun _ => hl.chk (.inl hph)⟩, ?_⟩
    exact hp.consume hd hq rfl rfl (by simp [Block.consumed, Block.summed, hph, chkhByte]; omega)
      (.inr ⟨rfl, by simp [Block.summed, hph, chkhByte]⟩) (by simpa [Block.written, hph, chkhByte] using hnval)
  | chkl => exact raise_inv _ hw hl.nreq hl.nval hl.pos

/-- A micro-step keeps the invariant (R220). -/
theorem micro_inv {k k' : Block} (hl : k.Legal) (hp : k.Parsing) (h : k.micro = .ok k') : k'.Legal ∧ k'.Parsing := by
  obtain rfl | ⟨hph, rfl⟩ | ⟨b, q, hq, hb⟩ := micro_cases h
  · exact ⟨hl, hp⟩
  · obtain e | ⟨b, q, hq, e⟩ := skipStep_cases k
    · rw [e]
      exact inv_of_not_decoding rfl hl.queue hl.nreq hl.nval hl.pos
    · rw [e]
      exact inv_of_not_decoding (by rw [hph]; rfl) (tail_wf (hq ▸ hl.queue)) hl.nreq hl.nval hl.pos
  · exact byteStep_inv hl hp hq hb

/-- Bytes that arrive keep the invariant: they only lengthen the queue, up to its depth (R71). -/
theorem rxPushAll_inv {k : Block} (bytes : List Byte) (hl : k.Legal) (hp : k.Parsing) :
    (k.rxPushAll bytes).Legal ∧ (k.rxPushAll bytes).Parsing := by
  have hgrow := pushAll_length_le k.rxq bytes
  exact ⟨⟨pushAll_wf bytes hl.queue, hl.nreq, hl.nval, hl.pos, hl.pay, hl.chk⟩,
    ⟨fun hd => (hp.queued hd).trans (Nat.add_le_add_right hgrow _), hp.sum, hp.nval⟩⟩

/-- The request step of a DECODE keeps the invariant: it starts only when the bytes it counts on are queued (R152). -/
theorem startDecode_inv {k : Block} {n : BitVec 4} (hn : n.toNat ≤ 13) (hl : k.Legal) :
    (startDecode n k).Legal ∧ (startDecode n k).Parsing := by
  obtain e | ⟨hqueued, e⟩ := startDecode_cases n k
  · rw [e]
    exact raise_inv _ hl.queue hl.nreq hl.nval hl.pos
  · rw [e]
    exact ⟨.of_ranges hl.queue hn (Nat.zero_le _) hl.pos (by simp) (by simp) (by simp),
      ⟨fun _ => hqueued, fun _ => Nat.zero_le _, fun _ => rfl⟩⟩

/-- Every move of the block keeps the invariant. -/
theorem blockMove_inv {k k' : Block} (hl : k.Legal) (hp : k.Parsing) (h : BlockMove k k') : k'.Legal ∧ k'.Parsing := by
  cases h with
  | same => exact ⟨hl, hp⟩
  | pushAll bytes => exact rxPushAll_inv bytes hl hp
  | timeout =>
    obtain e | ⟨-, e⟩ := rxTimeout_cases k
    · rw [e]
      exact ⟨hl, hp⟩
    · rw [e]
      exact raise_inv _ hl.queue hl.nreq hl.nval hl.pos
  | micro h => exact micro_inv hl hp h
  | skip => exact inv_of_not_decoding rfl hl.queue hl.nreq hl.nval hl.pos
  | decode hidle n hn => exact startDecode_inv hn hl
  | load hidle => exact inv_of_not_decoding (congrArg _ hidle) hl.queue hl.nreq hl.nval hl.pos
  | drop hidle => exact inv_of_not_decoding (congrArg _ hidle) hl.queue hl.nreq hl.nval hl.pos
  | flush hidle => exact inv_of_not_decoding (congrArg _ hidle) nil_wf hl.nreq hl.nval hl.pos

/-- A register that takes a number of a range holds a value of that range. -/
theorem toNat_ofNat_fin_le {m w : Nat} (x : Fin (m + 1)) : (BitVec.ofNat w x).toNat ≤ m := by
  rw [BitVec.toNat_ofNat]
  exact (Nat.mod_le _ _).trans x.is_le

/-- `RESET` leaves legal values, by the ranges its free values keep (log entry 5). -/
theorem afterReset_inv (c : Nat) : (Block.afterReset c).Legal ∧ (Block.afterReset c).Parsing :=
  inv_of_not_decoding rfl nil_wf (toNat_ofNat_fin_le (Config.freeNreq c)) (toNat_ofNat_fin_le (Config.freeNval c))
    (toNat_ofNat_fin_le (Config.freePos c))

/-- Settles O37: a step is a move of the block or the `RESET` event, and each keeps the invariant. -/
theorem invariantIsKeptByEveryStep : Obligations.InvariantIsKeptByEveryStep := by
  rintro s t ⟨hl, hp⟩ h
  obtain hmove | ⟨-, hreset⟩ := step_cases h
  · obtain ⟨hl', hp'⟩ := blockMove_inv hl hp hmove
    exact ⟨hl', hp'⟩
  · obtain ⟨hl', hp'⟩ := afterReset_inv s.freeCount
    exact ⟨hreset ▸ hl', hreset ▸ hp'⟩

/-- Settles O36: at reset no DECODE is in progress and the registers lie in their ranges. -/
theorem invariantHoldsAtReset : Obligations.InvariantHoldsAtReset := by
  obtain ⟨hl, hp⟩ := inv_of_not_decoding (k := Block.reset) rfl nil_wf (by decide) (by decide) (by decide)
  exact ⟨hl, hp⟩

end Sys2Proof.Machine
end

section
/-! PROOF. Which steps write `STATUS`, `REC` and the transmit registers, read off the causes of a step. -/

namespace Sys2Proof.Machine

/-- Settles O42: of the causes of a step only the micro-step, the timeout and a DECODE request write `STATUS`. -/
theorem statusIsWrittenOnlyWhenADecodeEnds : Obligations.StatusIsWrittenOnlyWhenADecodeEnds := by
  intro s t hr h hne
  cases step_cause h with
  | same e => exact absurd (congrArg _ e) hne
  | arrival _ bytes e => exact absurd (congrArg _ e) hne
  | timeout he e =>
    obtain e' | ⟨hd, e'⟩ := rxTimeout_cases s.block
    · exact absurd (congrArg _ (e.trans e')) hne
    · exact ⟨by rw [e, e']; rfl, .inl ⟨hd, .inr he⟩⟩
  | micro he hm =>
    obtain ⟨hd, hi⟩ := (micro_status hm).resolve_left hne
    exact ⟨hi, .inl ⟨hd, .inl he⟩⟩
  | reset he _ => exact absurd ((nextEvent_reset_iff s).mp he) hr
  | request hi w i u hreq hd hu hx =>
    obtain ⟨-, e⟩ | ⟨-, e⟩ | ⟨hlo, hup, n, e⟩ | ⟨-, -, e⟩ := request_effect (hu ▸ hi) hd hx
    · exact absurd (by rw [e, hu]) hne
    · exact absurd (by rw [e, hu]; rfl) hne
    · rw [hu] at e
      obtain ⟨hnd, hidle⟩ := (startDecode_status n s.block).resolve_left (e ▸ hne)
      exact ⟨e ▸ hidle, .inr ⟨hi, e ▸ hnd, w, hreq, hlo, hup⟩⟩
    · exact absurd (by rw [e, hu]) hne

/-- Settles O43: of the causes of a step only the micro-step writes `REC`, and it stores one wanted payload field. -/
theorem recordIsWrittenOnlyInThePayloadPhase : Obligations.RecordIsWrittenOnlyInThePayloadPhase := by
  intro s t hr h hne
  cases step_cause h with
  | same e => exact absurd (congrArg _ e) hne
  | arrival _ bytes e => exact absurd (congrArg _ e) hne
  | timeout _ e => exact absurd (by rw [e, rxTimeout_record]) hne
  | micro he hm =>
    obtain ⟨hph, hwanted, v, e⟩ := (micro_record hm).resolve_left hne
    refine ⟨he, hph, hwanted, fun j hj hother => ?_⟩
    simp only [e, Vector.getElem_setIfInBounds]
    exact if_neg fun h => hother h.symm
  | reset he _ => exact absurd ((nextEvent_reset_iff s).mp he) hr
  | request hi w i u _ hd hu hx =>
    obtain ⟨-, e⟩ | ⟨-, e⟩ | ⟨-, -, n, e⟩ | ⟨-, -, e⟩ := request_effect (hu ▸ hi) hd hx
    · exact absurd (by rw [e, hu]) hne
    · exact absurd (by rw [e, hu]; rfl) hne
    · exact absurd (by rw [e, startDecode_record, hu]) hne
    · exact absurd (by rw [e, hu]) hne

/-- Settles O44: of the causes of a step only a request word of ENCODE writes the transmit registers, and it writes nothing
else. -/
theorem transmitBufferIsWrittenOnlyByEncode : Obligations.TransmitBufferIsWrittenOnlyByEncode := by
  intro s t hr h hne
  have hkept : ¬ (t.block.txbuf = s.block.txbuf ∧ t.block.txvalid = s.block.txvalid) := by
    rintro ⟨hbuf, hvalid⟩
    exact hne.elim (absurd hbuf) (absurd hvalid)
  cases step_cause h with
  | same e => exact absurd (by simp [e]) hkept
  | arrival _ bytes e => exact absurd (by rw [e]; exact ⟨rfl, rfl⟩) hkept
  | timeout _ e => exact absurd (by simp [e]) hkept
  | micro _ hm => exact absurd (micro_tx hm) hkept
  | reset he _ => exact absurd ((nextEvent_reset_iff s).mp he) hr
  | request hi w i u hreq hd hu hx =>
    obtain ⟨-, e⟩ | ⟨-, e⟩ | ⟨-, -, n, e⟩ | ⟨hlo, hup, e⟩ := request_effect (hu ▸ hi) hd hx
    · exact absurd (by simp [e, hu]) hkept
    · exact absurd (by rw [e, hu]; exact ⟨rfl, rfl⟩) hkept
    · exact absurd (by simp [e, hu]) hkept
    · exact ⟨hi, hu ▸ e, w, hreq, hlo, hup⟩

end Sys2Proof.Machine
end

section
/-! PROOF. Reset values and the host's register space (R40, R42). -/

namespace Sys2Proof.Machine

/-- Settles O1: the values that R42 and R232 give stand in the definition of the reset state. -/
theorem resetLeavesBlockIdleAndSessionUnknown : Obligations.ResetLeavesBlockIdleAndSessionUnknown :=
  ⟨rfl, rfl, rfl, rfl, rfl, rfl, rfl⟩

/-- `BUSY` is bit 0 and `TXVALID` bit 1 of `FLAGS` (R40). -/
theorem flags_toNat (k : Block) :
    k.flags.toNat = (if k.phase = .idle then 0 else 1) + (if k.txvalid = true then 2 else 0) := by
  unfold Block.flags Block.busy
  by_cases hp : k.phase = .idle <;> cases k.txvalid <;> simp [hp]

/-- `AVAIL` reads the number of queued bytes where 16 bits hold it (R40). -/
theorem availReg_toNat {k : Block} (h : k.rxq.length < 65536) : k.availReg.toNat = k.rxq.length := by
  have hreg : k.availReg = BitVec.ofNat 16 k.rxq.length := if_pos h
  rw [hreg, BitVec.toNat_ofNat]
  exact Nat.mod_eq_of_lt h

/-- The record entries stand at `0x10` to `0x1C` (R40). -/
theorem readReg_record (k : Block) {j : Nat} (hj : j < 13) : k.readReg (0x10 + j) = some k.record[j] := by
  have hrange : 0x10 ≤ 0x10 + j ∧ 0x10 + j < 0x10 + 13 := by omega
  unfold Block.readReg
  iterate 7 rw [if_neg (by omega)]
  rw [dif_pos hrange]
  simp

/-- The transmit buffer stands at `0x20` to `0x26` (R40). -/
theorem readReg_txbuf (k : Block) {i : Nat} (hi : i < 7) : k.readReg (0x20 + i) = some (k.txbuf[i].setWidth 16) := by
  have hrange : 0x20 ≤ 0x20 + i ∧ 0x20 + i < 0x20 + 7 := by omega
  unfold Block.readReg
  iterate 7 rw [if_neg (by omega)]
  rw [dif_neg (by omega), dif_pos hrange]
  simp

/-- The gaps of the register map, with `OPREQ` (R40). -/
theorem readReg_unlisted (k : Block) {n : Nat}
    (h : n = 0 ∨ 0x07 < n ∧ n < 0x10 ∨ 0x1C < n ∧ n < 0x20 ∨ 0x26 < n) : k.readReg n = none := by
  unfold Block.readReg
  iterate 7 rw [if_neg (by omega)]
  rw [dif_neg (by omega), dif_neg (by omega)]

/-- Settles O46: the register map, number by number. -/
theorem registerMapReads : Obligations.RegisterMapReads := by
  intro k
  refine ⟨?status, ⟨k.flags.setWidth 16, rfl, ?flags⟩, rfl, rfl, rfl, fun h => ⟨k.availReg, rfl, availReg_toNat h⟩,
    ?phase, fun j hj => readReg_record k hj, fun i hi => readReg_txbuf k hi, fun n h => readReg_unlisted k h⟩
  case status =>
    rw [show k.readReg 0x01 = some (k.status.code.setWidth 16) from rfl]
    cases k.status <;> rfl
  case flags =>
    rw [BitVec.toNat_setWidth_of_le (by decide), flags_toNat]
  case phase =>
    rw [show k.readReg 0x07 = some (k.phase.code.setWidth 16) from rfl]
    cases k.phase <;> rfl

/-- The host's turn on a program, with no session call in progress, is the first action of the program (R251). -/
theorem step_program {s : State} {es : List Event} {act : HostAct} {ps : List HostAct} (hs : s.sched = .host :: es)
    (ht : s.todo = []) (hp : s.program = act :: ps) : step s = programTurn .go act ps { s with sched := es } := by
  rw [step_scheduled hs]
  simp only [takeEvent, hostTurn, ht, hp]

/-- A read of a listed register returns its value (R40). -/
theorem readPort_some {s : State} {n : Nat} {v : Word} (h : s.block.readReg n = some v) :
    s.readPort n = { s with rdata := v } := by
  unfold State.readPort
  rw [h]

/-- A read of any other number draws a free value (log entry 19). -/
theorem readPort_none {s : State} {n : Nat} (h : s.block.readReg n = none) :
    s.readPort n = { s with rdata := Config.freeRead s.freeCount, freeCount := s.freeCount + 1 } := by
  unfold State.readPort
  rw [h]

/-- Settles O47: a read moves a value to the host, a write to anything but `OPREQ` is only taken from the program. -/
theorem hostAccessHasNoSideEffect : Obligations.HostAccessHasNoSideEffect := by
  intro s ps es n hs ht
  refine ⟨fun v hp hv => ?_, fun hp hv => ⟨Config.freeRead s.freeCount, ?_⟩, fun w hp hn => ?_⟩
  · rw [step_program hs ht hp]
    exact congrArg _ (readPort_some (s := { s with sched := es, program := ps }) hv)
  · rw [step_program hs ht hp]
    exact congrArg _ (readPort_none (s := { s with sched := es, program := ps }) hv)
  · rw [step_program hs ht hp]
    exact if_neg hn

end Sys2Proof.Machine
end

section
/-! PROOF. The receive queue under arrivals and micro-steps: how far arriving bytes are appended, what each operation takes
from the queue, and that a DECODE or SKIP step looks at nothing behind the head (R71, R74, R75). -/

namespace Sys2Proof.Machine

/-! ### Arrivals -/

/-- An operation on the block replaces the block and nothing else. -/
theorem mapBlock_of_eq {s : State} {f : Block → Block} {k : Block} (h : f s.block = k) :
    s.mapBlock f = { s with block := k } := by rw [← h]; rfl

/-- Settles O25: the queue appends a byte where it has room and drops it where it has none. -/
theorem receivedByteIsAppendedOrDropped : Obligations.ReceivedByteIsAppendedOrDropped := by
  intro s b es hs
  rw [step_scheduled hs]
  refine ⟨fun hroom => ?_, fun hfull => ?_⟩
  · exact congrArg _ (mapBlock_of_eq (by rw [Block.rxPush, push_of_room b hroom]))
  · exact congrArg _ (mapBlock_of_eq (by rw [Block.rxPush, push_of_full b hfull]))

/-- Bytes that arrive one after the other are appended as far as the queue has room (R71). -/
theorem pushAll_eq_append_take (m : Memory) (bs : List Byte) :
    m.pushAll bs = m ++ bs.take (Config.rxDepth - m.length) := by
  induction bs generalizing m with
  | nil => simp
  | cons b bs ih =>
    rw [pushAll_cons, ih]
    by_cases hroom : m.length < Config.rxDepth
    · have hleft : Config.rxDepth - m.length = Config.rxDepth - (m.length + 1) + 1 := by omega
      rw [push_of_room b hroom, List.length_append, List.length_singleton, hleft, List.take_succ_cons]
      simp
    · have hleft : Config.rxDepth - m.length = 0 := by omega
      rw [push_of_full b (Nat.not_lt.mp hroom), hleft, List.take_zero, List.take_zero]

/-- Settles O24: a measurement frame arrives as the bytes of its encoding, in order. -/
theorem measurementFrameIsQueuedInOrder : Obligations.MeasurementFrameIsQueuedInOrder := by
  intro s fields chk
  have hframe : measurementFrame fields chk =
      [0x42#8, 0x4D#8] ++ beBytes (BitVec.ofNat 16 (2 * fields.length + 2)) ++ fields.flatMap beBytes ++ beBytes chk := rfl
  rw [← hframe, ← pushAll_eq_append_take]
  rfl

/-! ### What a micro-step takes from the queue -/

/-- A step on the popped byte leaves the rest of the queue alone (R220). -/
theorem ByteStep.rxq {k p k' : Block} {b : Byte} (h : ByteStep k b p k') : k'.rxq = p.rxq := by
  cases h with
  | sig0 => rfl
  | sig1 => obtain e | e := sig1Byte_cases b p <;> simp [e]
  | lenh => rfl
  | lenl => obtain e | ⟨-, e⟩ | ⟨-, -, -, e⟩ := lenlByte_cases b p <;> simp [e]
  | pay _ hk => obtain ⟨-, rfl⟩ | ⟨-, -, -, rfl⟩ | ⟨-, -, rfl⟩ := payByte_cases hk <;> rfl
  | chkh => rfl
  | chkl => rfl

/-- A micro-step leaves the queue alone, or the operation in progress consumes its head (R75). -/
theorem micro_rxq {k k' : Block} (h : k.micro = .ok k') :
    k'.rxq = k.rxq ∨ (k.phase ≠ .idle ∧ ∃ b, k.rxq = b :: k'.rxq) := by
  obtain rfl | ⟨hskip, rfl⟩ | ⟨b, q, hq, hb⟩ := micro_cases h
  · exact .inl rfl
  · obtain e | ⟨b, q, hq, e⟩ := skipStep_cases k
    · exact .inl (by rw [e])
    · exact .inr ⟨by simp [hskip], b, by rw [e, hq]⟩
  · have hbusy : k.phase ≠ .idle := fun hi => by simpa [hi, Phase.decoding] using hb.decoding
    exact .inr ⟨hbusy, b, by rw [hq, hb.rxq]⟩

@[simp] theorem rxTimeout_rxq (k : Block) : k.rxTimeout.rxq = k.rxq := by
  obtain e | ⟨-, e⟩ := rxTimeout_cases k <;> simp [e]

@[simp] theorem startDecode_rxq (n : BitVec 4) (k : Block) : (startDecode n k).rxq = k.rxq := by
  obtain e | ⟨-, e⟩ := startDecode_cases n k <;> simp [e]

/-- Settles O45: of the causes of a step an arrival appends, a micro-step consumes the head, and only the FLUSH word and
`RESET` empty the queue. -/
theorem queueIsFirstInFirstOut : Obligations.QueueIsFirstInFirstOut := by
  intro s t h
  cases step_cause h with
  | same e => exact .inl (by rw [e])
  | arrival he bytes e =>
    obtain ⟨arrived, ha⟩ := pushAll_extends s.block.rxq bytes
    exact .inr (.inl ⟨he, arrived, by rw [e, rxPushAll_rxq, ha]⟩)
  | timeout _ e => exact .inl (by rw [e, rxTimeout_rxq])
  | micro he hm =>
    obtain hsame | ⟨hbusy, hpop⟩ := micro_rxq hm
    · exact .inl hsame
    · exact .inr (.inr (.inl ⟨he, hbusy, hpop⟩))
  | reset he e => exact .inr (.inr (.inr ⟨by rw [e, afterReset_rxq], .inr he⟩))
  | request hi w i u hreq hd hu hx =>
    obtain ⟨-, e⟩ | ⟨rfl, e⟩ | ⟨-, -, n, e⟩ | ⟨-, -, e⟩ := request_effect (hu ▸ hi) hd hx
    · exact .inl (by rw [e, hu])
    · exact .inr (.inr (.inr ⟨by rw [e, flushQueue_rxq], .inl ⟨hi, hreq⟩⟩))
    · exact .inl (by rw [e, startDecode_rxq, hu])
    · exact .inl (by rw [e, hu])

/-! ### An arrival behind the head -/

/-- A step on the popped byte that reads no queue: with another queue it does the same and leaves that queue. -/
def IgnoresQueue (f : Byte → Block → Except Fault Block) : Prop :=
  ∀ (b : Byte) (k : Block) (q : List Byte), f b { k with rxq := q } = (f b k).map fun k' => { k' with rxq := q }

theorem sig1Byte_ignoresQueue : IgnoresQueue fun b k => .ok (sig1Byte b k) := by
  intro b k q
  simp only [sig1Byte]
  split <;> rfl

theorem lenlByte_ignoresQueue : IgnoresQueue fun b k => .ok (lenlByte b k) := by
  intro b k q
  simp only [lenlByte]
  repeat' split
  all_goals rfl

theorem payByte_ignoresQueue : IgnoresQueue payByte := by
  intro b k q
  unfold payByte storeField
  simp only [apply_ite (Except.map _)]
  rfl

/-- Where there is room, a byte that arrives behind the head commutes with a step that reads no queue. -/
theorem onByte_rxPush {f : Byte → Block → Except Fault Block} (hf : IgnoresQueue f) {k k' : Block} (b : Byte)
    (hne : k.rxq ≠ []) (hroom : k.rxq.length < Config.rxDepth) (h : k.onByte f = .ok k') :
    (k.rxPush b).onByte f = .ok (k'.rxPush b) := by
  obtain ⟨c, q, hq⟩ := List.exists_cons_of_ne_nil hne
  have hq' : (k.rxPush b).rxq = c :: (q ++ [b]) := by rw [rxPush_rxq, push_of_room b hroom, hq]; rfl
  simp only [Block.onByte, hq, hf c k q] at h
  simp only [Block.onByte, hq']
  cases hm : f c k with
  | error r => rw [hm] at h; cases h
  | ok m =>
    rw [hm] at h
    cases h
    have hlen : q.length < Config.rxDepth := by rw [hq, List.length_cons] at hroom; omega
    calc f c { k with rxq := q ++ [b] } = .ok { m with rxq := q ++ [b] } := by rw [hf c k, hm]; rfl
      _ = .ok (({ m with rxq := q } : Block).rxPush b) := by rw [Block.rxPush, push_of_room b hlen]

/-- A SKIP step on a queue with a byte looks at the head alone (R131). -/
theorem skipStep_rxPush {k : Block} (b : Byte) (hne : k.rxq ≠ []) (hroom : k.rxq.length < Config.rxDepth) :
    skipStep (k.rxPush b) = (skipStep k).rxPush b := by
  obtain ⟨c, q, hq⟩ := List.exists_cons_of_ne_nil hne
  have hlen : q.length < Config.rxDepth := by rw [hq, List.length_cons] at hroom; omega
  have hq' : (k.rxPush b).rxq = c :: (q ++ [b]) := by rw [rxPush_rxq, push_of_room b hroom, hq]; rfl
  simp only [skipStep, hq, hq']
  split
  · simp only [Block.rxPush, push_of_room b (hq ▸ hroom), List.cons_append]
  · simp only [Block.rxPush, push_of_room b hlen]

/-- Settles O20: every micro-step that pops a byte reads nothing behind it, and neither does the SKIP step. -/
theorem arrivalCommutesWithMicroStep : Obligations.ArrivalCommutesWithMicroStep := by
  intro k k' b hne hroom h
  have hphase : (k.rxPush b).phase = k.phase := rfl
  unfold Block.micro at h ⊢
  rw [hphase]
  cases hp : k.phase <;> simp only [hp] at h ⊢
  case idle => cases h; rfl
  case skip => cases h; rw [skipStep_rxPush b hne hroom]
  case sig0 => exact onByte_rxPush (fun _ _ _ => rfl) b hne hroom h
  case sig1 => exact onByte_rxPush sig1Byte_ignoresQueue b hne hroom h
  case lenh => exact onByte_rxPush (fun _ _ _ => rfl) b hne hroom h
  case lenl => exact onByte_rxPush lenlByte_ignoresQueue b hne hroom h
  case pay => exact onByte_rxPush payByte_ignoresQueue b hne hroom h
  case chkh => exact onByte_rxPush (fun _ _ _ => rfl) b hne hroom h
  case chkl => exact onByte_rxPush (fun _ _ _ => rfl) b hne hroom h

end Sys2Proof.Machine
end

section
/-! PROOF. What a step runs: the timeout of a DECODE that waits, a request on an idle and on a busy block, a frame written and
a frame received (R72, R73, R248). -/

namespace Sys2Proof.Machine

/-! ### The timeout -/

/-- A DECODE is in progress in every phase but two (R72). -/
theorem decoding_iff (p : Phase) : p.decoding = true ↔ p ≠ .idle ∧ p ≠ .skip := by
  cases p <;> simp [Phase.decoding]

/-- `RX_TIMEOUT` is enabled for a DECODE on an empty queue (R72). -/
theorem waiting_iff (k : Block) : k.waiting = true ↔ (k.phase ≠ .idle ∧ k.phase ≠ .skip) ∧ k.rxq = [] := by
  rw [Block.waiting, Bool.and_eq_true, decoding_iff, decide_eq_true_eq]

/-- Settles O13: the timeout is enabled exactly for a DECODE that waits. -/
theorem timeoutEndsOnlyAWaitingDecode : Obligations.TimeoutEndsOnlyAWaitingDecode := by
  intro s es hs
  rw [step_scheduled hs]
  refine ⟨fun hidle hskip hq => ?_, fun h => ?_⟩
  · exact congrArg _ (mapBlock_of_eq (if_pos ((waiting_iff _).mpr ⟨⟨hidle, hskip⟩, hq⟩)))
  · have hw : ¬ s.block.waiting = true := by
      rw [waiting_iff]
      rintro ⟨⟨hidle, hskip⟩, hq⟩
      exact h.elim hidle fun h => h.elim hskip fun h => h hq
    exact congrArg _ (mapBlock_of_eq (if_neg hw))

/-! ### Requests and frames -/

/-- On a busy block a request changes nothing (R73). -/
theorem whenIdle_busy {s : State} (f : Block → Block) (h : s.block.phase ≠ .idle) : s.whenIdle f = .next s := if_neg h

/-- The host's turn on a session call in progress is its next act (R251). -/
theorem step_session {s : State} {es : List Event} {act : SessionAct} {acts : List SessionAct} (hs : s.sched = .host :: es)
    (ht : s.todo = act :: acts) : step s = sessionTurn .go act acts { s with sched := es } := by
  rw [step_scheduled hs]
  simp only [takeEvent, hostTurn, ht]

/-- A request of the program, in either form, is fetched in the host's turn (R40, R75). -/
theorem step_programRequest {s : State} {es : List Event} {w : Byte} {ps : List HostAct} (hs : s.sched = .host :: es)
    (ht : s.todo = []) (hp : s.program = .request w :: ps ∨ s.program = .writeReg 0 w :: ps) :
    step s = State.acceptRequest { s with sched := es } { s with sched := es, program := ps } w := by
  obtain hp | hp := hp <;> (rw [step_program hs ht hp]; rfl)

/-- A request of the session is fetched in the host's turn (R251). -/
theorem step_sessionRequest {s : State} {es : List Event} {w : Byte} {acts : List SessionAct} (hs : s.sched = .host :: es)
    (ht : s.todo = .request w :: acts) :
    step s = State.acceptRequest { s with sched := es } { s with sched := es, todo := acts } w := by
  rw [step_session hs ht]
  rfl

/-- An idle block takes a request and runs its instruction (R73). -/
theorem acceptRequest_idle {s after : State} {w : Byte} {i : Instr} (hi : s.block.phase = .idle)
    (hd : decode .opreq [w] = .ok (i, [])) : s.acceptRequest after w = exec i after := by
  have hw : decodeRequest w = .ok i := by
    simp only [decode] at hd
    split at hd
    · cases hd; assumption
    · cases hd
  unfold State.acceptRequest
  rw [if_pos hi, hw]

/-- A busy block leaves a request with the host (R73). -/
theorem acceptRequest_busy {s after : State} {w : Byte} (h : s.block.phase ≠ .idle) :
    s.acceptRequest after w = .next s := if_neg h

/-- A write that is a command frame runs it (log entries 3 and 11). -/
theorem transmitUnit_command {after : State} {bytes : List Byte} {i : Instr} (hd : decode .tx bytes = .ok (i, [])) :
    after.transmitUnit bytes = exec i after := by
  unfold State.transmitUnit
  rw [hd]

/-- A burst that begins with a frame runs it, with the other bytes next (log entry 12). -/
theorem receiveBurst_measurement {s : State} {bytes rest : List Byte} {i : Instr} (hd : decode .rx bytes = .ok (i, rest)) :
    s.receiveBurst bytes = exec i (s.rescheduleBurst rest) := by
  unfold State.receiveBurst
  rw [hd]

/-- Settles O32: each of the four paths fetches a word, takes it from where it stood and runs its instruction. -/
theorem stepRunsTheDecodedInstruction : Obligations.StepRunsTheDecodedInstruction := by
  intro s i es
  refine ⟨fun w ps hs ht hp hi hd => ?_, fun w acts hs ht hi hd => ?_, fun bytes ps hs ht hp hd => ?_,
    fun bytes rest hs hd => ?_⟩
  · rw [step_programRequest hs ht hp]
    exact acceptRequest_idle hi hd
  · rw [step_sessionRequest hs ht]
    exact acceptRequest_idle hi hd
  · rw [step_program hs ht hp]
    exact transmitUnit_command hd
  · rw [step_scheduled hs, takeEvent, receiveBurst_measurement hd]
    cases rest <;> rfl

/-- Settles O34: each request and each path to it asks first whether the block is idle. -/
theorem requestWaitsWhileBusy : Obligations.RequestWaitsWhileBusy := by
  intro s es hbusy
  refine ⟨fun i hi => ?_, fun w ps hs ht hp => ?_, fun w acts hs ht => ?_⟩
  · cases i with
    | decode n =>
      simp only [exec, execDecode]
      split
      · exact whenIdle_busy _ hbusy
      · rfl
    | cmdRead | cmdPassive | cmdActive | cmdSleep | cmdWake | mframe => cases hi
    | _ => exact whenIdle_busy _ hbusy
  · rw [step_programRequest hs ht hp]
    exact acceptRequest_busy hbusy
  · rw [step_sessionRequest hs ht]
    exact acceptRequest_busy hbusy

end Sys2Proof.Machine
end

section
/-! PROOF. No transition is without an answer: requests, writes, the host's turn and every event answer a next state, and the
micro-step does when `NREQ` is legal (R41, R74). -/

namespace Sys2Proof.Machine

theorem acceptRequest_total (s after : State) (w : Byte) : ∃ t, s.acceptRequest after w = .next t := by
  unfold State.acceptRequest
  split
  · split
    · exact exec_total _ _
    · exact ⟨_, rfl⟩
  · exact ⟨_, rfl⟩

theorem transmitUnit_total (after : State) (bytes : List Byte) : ∃ t, after.transmitUnit bytes = .next t := by
  unfold State.transmitUnit
  split
  · exact exec_total _ _
  · exact ⟨_, rfl⟩

theorem programTurn_total (a : Answer) (act : HostAct) (rest : List HostAct) (s : State) :
    ∃ t, programTurn a act rest s = .next t := by
  cases a with
  | expire => exact ⟨_, rfl⟩
  | count n =>
    cases act with
    | transmit bytes =>
      simp only [programTurn]
      split
      · exact ⟨_, rfl⟩
      · exact transmitUnit_total _ _
    | _ => exact ⟨_, rfl⟩
  | go =>
    cases act with
    | request w => exact acceptRequest_total _ _ _
    | writeReg n w =>
      simp only [programTurn]
      split
      · exact acceptRequest_total _ _ _
      · exact ⟨_, rfl⟩
    | transmit bytes => exact transmitUnit_total _ _
    | readMeasurement n =>
      simp only [programTurn]
      split <;> exact ⟨_, rfl⟩
    | _ => exact ⟨_, rfl⟩

theorem sessionWrite_total (s after : State) (bytes : List Byte) (a : Answer) :
    ∃ t, s.sessionWrite after bytes a = .next t := by
  unfold State.sessionWrite
  repeat' split
  all_goals exact ⟨_, rfl⟩

theorem sessionWait_total (s after : State) (need : Nat) (atOnce : Bool) (a : Answer) :
    ∃ t, s.sessionWait after need atOnce a = .next t := by
  unfold State.sessionWait
  repeat' split
  all_goals exact ⟨_, rfl⟩

theorem sessionPlain_total (s after : State) (act : SessionAct) : ∃ t, s.sessionPlain after act = .next t := by
  cases act with
  | request w => exact acceptRequest_total _ _ _
  | await =>
    simp only [State.sessionPlain]
    split <;> exact ⟨_, rfl⟩
  | _ => exact ⟨_, rfl⟩

theorem sessionTurn_total (a : Answer) (act : SessionAct) (rest : List SessionAct) (s : State) :
    ∃ t, sessionTurn a act rest s = .next t := by
  unfold sessionTurn
  split
  · exact sessionWrite_total _ _ _ _
  · exact sessionWait_total _ _ _ _ _
  · split
    · exact sessionPlain_total _ _ _
    · exact ⟨_, rfl⟩
    · exact ⟨_, rfl⟩

theorem hostTurn_total (a : Answer) (s : State) : ∃ t, hostTurn a s = .next t := by
  unfold hostTurn
  split
  · exact sessionTurn_total _ _ _ _
  · split
    · exact programTurn_total _ _ _ _
    · exact ⟨_, rfl⟩

theorem receiveBurst_total (s : State) (bytes : List Byte) : ∃ t, s.receiveBurst bytes = .next t := by
  unfold State.receiveBurst
  split
  · exact exec_total _ _
  · exact ⟨_, rfl⟩

/-- A payload byte is stored in an entry of the record when `NREQ` is legal (R41, R158). -/
theorem payByte_total {k : Block} (b : Byte) (hn : k.nreq.toNat ≤ 13) : ∃ k', payByte b k = .ok k' := by
  unfold payByte storeField
  split
  · exact ⟨_, rfl⟩
  · split
    · rename_i hwanted
      exact ⟨_, if_pos (Nat.lt_of_lt_of_le hwanted hn)⟩
    · exact ⟨_, rfl⟩

theorem onByte_total {k : Block} {f : Byte → Block → Except Fault Block}
    (hf : ∀ b q, ∃ k', f b { k with rxq := q } = .ok k') : ∃ k', k.onByte f = .ok k' := by
  unfold Block.onByte
  split
  · exact ⟨_, rfl⟩
  · exact hf _ _

/-- No micro-step stops the machine when `NREQ` is legal (R41). -/
theorem micro_total {k : Block} (hn : k.nreq.toNat ≤ 13) : ∃ k', k.micro = .ok k' := by
  unfold Block.micro
  split
  case h_1 | h_2 => exact ⟨_, rfl⟩
  case h_7 => exact onByte_total fun b _ => payByte_total b hn
  all_goals exact onByte_total fun _ _ => ⟨_, rfl⟩

theorem takeEvent_block {s : State} {k : Block} (h : s.block.micro = .ok k) :
    takeEvent .block s = .next { s with block := k } := by
  simp only [takeEvent, State.ofMicro, h]

theorem takeEvent_total {s : State} (e : Event) (hn : s.block.nreq.toNat ≤ 13) : ∃ t, takeEvent e s = .next t := by
  cases e with
  | rxBurst bytes => exact receiveBurst_total _ _
  | block =>
    obtain ⟨k, hk⟩ := micro_total hn
    exact ⟨{ s with block := k }, takeEvent_block hk⟩
  | host | hostWrite | waitExpires => exact hostTurn_total _ _
  | rxPush | rxTimeout | reset => exact ⟨_, rfl⟩

/-- No step stops the machine when `NREQ` is legal (R41). -/
theorem step_total {s : State} (hn : s.block.nreq.toNat ≤ 13) : ∃ t, step s = .next t := by
  rw [step_nextEvent]
  exact takeEvent_total _ hn

end Sys2Proof.Machine
end

section
/-! PROOF. The end of an operation: each micro-step of a DECODE leaves less of its frame to read, each step of a SKIP fewer
bytes to look at, and the schedule is used up in between (R79, R277). -/

namespace Sys2Proof.Machine

/-! ### The default step of a busy block -/

theorem microEnabled_iff (k : Block) :
    k.microEnabled = true ↔ k.phase = .skip ∨ (k.phase.decoding = true ∧ k.rxq ≠ []) := by
  rw [Block.microEnabled, Bool.or_eq_true, Bool.and_eq_true, decide_eq_true_eq, decide_eq_true_eq]

/-- With nothing scheduled an enabled micro-step comes next (R79 (a)). -/
theorem step_default_micro {s : State} {k : Block} (hs : s.sched = []) (he : s.block.microEnabled = true)
    (hk : s.block.micro = .ok k) : step s = .next { s with sched := s.recurring, block := k } := by
  have hd : s.defaultEvent = .block := if_pos he
  rw [step_default hs, hd]
  exact takeEvent_block hk

/-- With nothing scheduled a DECODE that waits times out (R79 (b)). -/
theorem step_default_timeout {s : State} (hs : s.sched = []) (hw : s.block.waiting = true) :
    step s = .next { s with sched := s.recurring, block := s.block.raise .readError } := by
  have hne : ¬ s.block.microEnabled = true := by
    obtain ⟨⟨-, hskip⟩, hq⟩ := (waiting_iff _).mp hw
    rw [microEnabled_iff]
    exact fun h => h.elim hskip fun h => h.2 hq
  have hd : s.defaultEvent = .rxTimeout := (if_neg hne).trans (if_pos hw)
  rw [step_default hs, hd, takeEvent]
  exact congrArg _ (mapBlock_of_eq (if_pos hw))

/-- A busy block has a micro-step to take or waits (R79). -/
theorem microEnabled_or_waiting {k : Block} (h : k.phase ≠ .idle) : k.microEnabled = true ∨ k.waiting = true := by
  rw [microEnabled_iff, waiting_iff, decoding_iff]
  by_cases hskip : k.phase = .skip
  · exact .inl (.inl hskip)
  · by_cases hq : k.rxq = []
    · exact .inr ⟨⟨h, hskip⟩, hq⟩
    · exact .inl (.inr ⟨⟨h, hskip⟩, hq⟩)

/-! ### A DECODE leaves less and less of its frame to read -/

/-- The bounds of R41 that the end of an operation rests on: those of `NREQ` and of the payload in progress. -/
structure Block.Bounded (k : Block) : Prop where
  nreq : k.nreq.toNat ≤ 13
  pay : k.phase = .pay → k.len.toNat ≤ 56 ∧ k.pos.toNat < k.len.toNat - 2

theorem Block.Legal.bounded {k : Block} (h : k.Legal) : k.Bounded := ⟨h.nreq, fun hp => (h.pay hp).2⟩

/-- Outside the payload only `NREQ` has a bound. -/
theorem Block.Bounded.of_nreq {k : Block} (hn : k.nreq.toNat ≤ 13) (hp : k.phase ≠ .pay) : k.Bounded :=
  ⟨hn, fun h => absurd h hp⟩

/-- The most bytes that the DECODE in progress still reads: a frame has at most `4 + MAX_LEN` (R104). -/
def Block.frameLeft (k : Block) : Nat :=
  match k.phase with
  | .idle => 0
  | .skip => 0
  | .sig0 => 60
  | .sig1 => 59
  | .lenh => 58
  | .lenl => 57
  | .pay => k.len.toNat - k.pos.toNat
  | .chkh => 2
  | .chkl => 1

/-- A payload byte brings the DECODE nearer to the end of its payload (R158). -/
theorem payByte_progress {k k' : Block} {b : Byte} (hb : k.Bounded) (hp : k.phase = .pay) (h : payByte b k = .ok k') :
    k'.phase.decoding = true ∧ k'.Bounded ∧ k'.frameLeft < k.frameLeft := by
  obtain ⟨h56, hlt⟩ := hb.pay hp
  have hframe : k'.nreq = k.nreq ∧ k'.len = k.len ∧ k'.pos = k.pos + 1#6 ∧
      k'.phase = if k.atLastPayloadByte then .chkh else .pay := by
    obtain ⟨-, rfl⟩ | ⟨-, -, -, rfl⟩ | ⟨-, -, rfl⟩ := payByte_cases h <;> exact ⟨rfl, rfl, rfl, rfl⟩
  obtain ⟨hnreq, hlen, hpos, hphase⟩ := hframe
  have hpos : k'.pos.toNat = k.pos.toNat + 1 := by
    rw [hpos, BitVec.toNat_add, BitVec.toNat_ofNat]
    omega
  have hn : k'.nreq.toNat ≤ 13 := hnreq ▸ hb.nreq
  have hleft : k.frameLeft = k.len.toNat - k.pos.toNat := by simp only [Block.frameLeft, hp]
  by_cases hlast : k.pos.toNat + 1 = k.len.toNat - 2
  · replace hphase := hphase.trans (if_pos (decide_eq_true hlast))
    have hleft' : k'.frameLeft = 2 := by simp only [Block.frameLeft, hphase]
    exact ⟨by rw [hphase]; rfl, .of_nreq hn (by simp [hphase]), by omega⟩
  · replace hphase := hphase.trans (if_neg fun h => hlast (of_decide_eq_true h))
    have hleft' : k'.frameLeft = k.len.toNat - (k.pos.toNat + 1) := by
      simp only [Block.frameLeft, hphase, hlen, hpos]
    exact ⟨by rw [hphase]; rfl, ⟨hn, fun _ => by rw [hlen, hpos]; omega⟩, by omega⟩

/-- A byte of a DECODE ends it, or leaves less of its frame to read (R153 to R160). -/
theorem ByteStep.progress {k k' : Block} {b : Byte} {q : List Byte} (hb : k.Bounded)
    (h : ByteStep k b { k with rxq := q } k') :
    k'.phase = .idle ∨ (k'.phase.decoding = true ∧ k'.Bounded ∧ k'.frameLeft < k.frameLeft) := by
  cases h with
  | sig0 hp => exact .inr ⟨rfl, .of_nreq hb.nreq (by simp [sig0Byte]), by simp [Block.frameLeft, sig0Byte, hp]⟩
  | sig1 hp =>
    obtain e | e := sig1Byte_cases b { k with rxq := q }
    · rw [e]
      exact .inr ⟨rfl, .of_nreq hb.nreq (by simp), by simp [Block.frameLeft, hp]⟩
    · exact .inl (by rw [e, raise_phase])
  | lenh hp => exact .inr ⟨rfl, .of_nreq hb.nreq (by simp [lenhByte]), by simp [Block.frameLeft, lenhByte, hp]⟩
  | lenl hp =>
    obtain e | ⟨-, e⟩ | ⟨-, h4, h56, e⟩ := lenlByte_cases b { k with rxq := q }
    · exact .inl (by rw [e, raise_phase])
    · rw [e]
      exact .inr ⟨rfl, .of_nreq hb.nreq (by simp), by simp [Block.frameLeft, hp]⟩
    · rw [e]
      dsimp only at h4 h56
      refine .inr ⟨rfl, ⟨hb.nreq, fun _ => ⟨h56, ?_⟩⟩, ?_⟩
      · simp only [BitVec.toNat_ofNat]
        omega
      · simp only [Block.frameLeft, hp, BitVec.toNat_ofNat]
        omega
  | pay hp hk => exact .inr (payByte_progress (k := { k with rxq := q }) ⟨hb.nreq, hb.pay⟩ hp hk)
  | chkh hp => exact .inr ⟨rfl, .of_nreq hb.nreq (by simp [chkhByte]), by simp [Block.frameLeft, chkhByte, hp]⟩
  | chkl => exact .inl rfl

/-! ### The operation in progress goes on -/

/-- The operation in progress goes on: the same operation, within its bounds, with no more of a frame to read. -/
structure Block.Continues (k k' : Block) : Prop where
  bounded : k'.Bounded
  busy : k'.phase ≠ .idle
  skip : k'.phase = .skip ↔ k.phase = .skip
  left : k'.frameLeft ≤ k.frameLeft

/-- The operation in progress goes on and has taken a byte, a DECODE one of its frame. -/
structure Block.Advances (k k' : Block) : Prop extends k.Continues k' where
  queue : k'.rxq.length < k.rxq.length
  frame : k.phase ≠ .skip → k'.frameLeft < k.frameLeft

/-- With a byte queued the micro-step of a DECODE is the step on it (R220). -/
theorem micro_byteStep {k k' : Block} {b : Byte} {q : List Byte} (hd : k.phase.decoding = true) (hq : k.rxq = b :: q)
    (h : k.micro = .ok k') : ByteStep k b { k with rxq := q } k' := by
  cases hp : k.phase with
  | idle | skip => rw [hp] at hd; cases hd
  | sig0 => rw [micro_sig0 hp hq] at h; cases h; exact .sig0 hp
  | sig1 => rw [micro_sig1 hp hq] at h; cases h; exact .sig1 hp
  | lenh => rw [micro_lenh hp hq] at h; cases h; exact .lenh hp
  | lenl => rw [micro_lenl hp hq] at h; cases h; exact .lenl hp
  | pay => rw [micro_pay hp hq] at h; exact .pay hp h
  | chkh => rw [micro_chkh hp hq] at h; cases h; exact .chkh hp
  | chkl => rw [micro_chkl hp hq] at h; cases h; exact .chkl hp

/-- An enabled micro-step ends the operation or advances it. -/
theorem micro_advances {k k' : Block} (hb : k.Bounded) (he : k.microEnabled = true) (h : k.micro = .ok k') :
    k'.phase = .idle ∨ k.Advances k' := by
  obtain hskip | ⟨hd, hne⟩ := (microEnabled_iff k).mp he
  · rw [micro_skip hskip] at h
    cases h
    obtain e | ⟨b, q, hq, e⟩ := skipStep_cases k
    · exact .inl (by rw [e])
    · have hleft : (skipStep k).frameLeft = k.frameLeft := by simp only [e, Block.frameLeft, hskip]
      refine .inr ⟨⟨?_, by simp [e, hskip], by simp [e], hleft.le⟩, by simp [e, hq], fun hns => absurd hskip hns⟩
      rw [e]
      exact ⟨hb.nreq, hb.pay⟩
  · obtain ⟨b, q, hq⟩ := List.exists_cons_of_ne_nil hne
    have hstep := micro_byteStep hd hq h
    obtain hidle | ⟨hd', hb', hlt⟩ := hstep.progress hb
    · exact .inl hidle
    · obtain ⟨hbusy, hns⟩ := (decoding_iff _).mp hd
      obtain ⟨hbusy', hns'⟩ := (decoding_iff _).mp hd'
      exact .inr ⟨⟨hb', hbusy', iff_of_false hns' hns, hlt.le⟩, by simp [hstep.rxq, hq], fun _ => hlt⟩

/-- Any micro-step ends the operation or lets it go on. -/
theorem micro_continues {k k' : Block} (hb : k.Bounded) (hbusy : k.phase ≠ .idle) (h : k.micro = .ok k') :
    k'.phase = .idle ∨ k.Continues k' := by
  by_cases he : k.microEnabled = true
  · exact (micro_advances hb he h).imp id Block.Advances.toContinues
  · rw [microEnabled_iff, not_or] at he
    obtain rfl | ⟨hskip, -⟩ | ⟨b, q, hq, hstep⟩ := micro_cases h
    · exact .inr ⟨hb, hbusy, Iff.rfl, le_rfl⟩
    · exact absurd hskip he.1
    · exact absurd ⟨hstep.decoding, by simp [hq]⟩ he.2

/-- Any step ends the operation in progress or lets it go on. -/
theorem step_continues {s t : State} (hb : s.block.Bounded) (hbusy : s.block.phase ≠ .idle) (h : step s = .next t) :
    t.block.phase = .idle ∨ s.block.Continues t.block := by
  cases step_cause h with
  | same e => exact .inr (by rw [e]; exact ⟨hb, hbusy, Iff.rfl, le_rfl⟩)
  | arrival _ bytes e => exact .inr (by rw [e]; exact ⟨⟨hb.nreq, hb.pay⟩, hbusy, Iff.rfl, le_rfl⟩)
  | timeout _ e =>
    obtain e' | ⟨-, e'⟩ := rxTimeout_cases s.block
    · exact .inr (by rw [e, e']; exact ⟨hb, hbusy, Iff.rfl, le_rfl⟩)
    · exact .inl (by rw [e, e', raise_phase])
  | micro _ hm => exact micro_continues hb hbusy hm
  | reset _ e => exact .inl (by rw [e, afterReset_phase])
  | request hi => exact absurd hi hbusy

/-- With nothing scheduled a step ends the operation in progress or advances it (R79 (a), (b)). -/
theorem step_default_advances {s : State} (hb : s.block.Bounded) (hbusy : s.block.phase ≠ .idle) (hs : s.sched = []) :
    ∃ t, step s = .next t ∧ t.sched = s.recurring ∧ t.recurring = s.recurring ∧
      (t.block.phase = .idle ∨ s.block.Advances t.block) := by
  obtain he | hw := microEnabled_or_waiting hbusy
  · obtain ⟨k, hk⟩ := micro_total hb.nreq
    exact ⟨_, step_default_micro hs he hk, rfl, rfl, micro_advances hb he hk⟩
  · exact ⟨_, step_default_timeout hs hw, rfl, rfl, .inl rfl⟩

/-- In a quiet environment an operation ends within one step for each queued byte and one more. -/
theorem quiet_operation_ends {s : State} (hb : s.block.Bounded) (hbusy : s.block.phase ≠ .idle) (hs : s.sched = [])
    (hr : s.recurring = []) :
    ∃ (n : Nat) (t : State), n ≤ s.block.rxq.length + 1 ∧ Host.Core.run Sys2Proof.core n s = .next t ∧
      t.block.phase = .idle := by
  induction hlen : s.block.rxq.length using Nat.strong_induction_on generalizing s with
  | _ len ih =>
    obtain ⟨t, ht, hst, hrt, hidle | hadv⟩ := step_default_advances hb hbusy hs
    · exact ⟨1, t, by omega, core_run_succ 0 ht, hidle⟩
    · obtain ⟨n, u, hn, hu, hidle⟩ := ih _ (hlen ▸ hadv.queue) hadv.bounded hadv.busy (hst.trans hr) (hrt.trans hr) rfl
      have hqueue := hadv.queue
      exact ⟨n + 1, u, by omega, (core_run_succ n ht).trans hu, hidle⟩

/-! ### What is scheduled is used up -/

/-- How many bytes an event brings at most. -/
def Event.byteCount : Event → Nat
  | .rxPush _ => 1
  | .rxBurst bytes => bytes.length
  | .rxTimeout => 0
  | .block => 0
  | .host => 0
  | .hostWrite _ => 0
  | .waitExpires => 0
  | .reset => 0

/-- How many bytes the schedule still brings at most. -/
def State.arriving (s : State) : Nat := (s.sched.map Event.byteCount).sum

theorem byteCount_of_not_arrives {e : Event} (h : e.arrives = false) : e.byteCount = 0 := by
  cases e with
  | rxPush | rxBurst => cases h
  | _ => rfl

theorem arriving_cons {s : State} {e : Event} {es : List Event} (h : s.sched = e :: es) :
    s.arriving = e.byteCount + (es.map Event.byteCount).sum := by
  rw [State.arriving, h, List.map_cons, List.sum_cons]

theorem arriving_of_quiet {s : State} (h : ∀ e ∈ s.sched, e.arrives = false) : s.arriving = 0 := by
  rw [State.arriving, List.sum_eq_zero_iff]
  intro n hn
  obtain ⟨e, he, rfl⟩ := List.mem_map.mp hn
  exact byteCount_of_not_arrives (h e he)

theorem push_length_le_succ (m : Memory) (b : Byte) : (m.push b).length ≤ m.length + 1 := by
  by_cases hroom : m.length < Config.rxDepth
  · rw [push_of_room b hroom, List.length_append, List.length_singleton]
  · rw [push_of_full b (Nat.not_lt.mp hroom)]
    exact Nat.le_succ _

theorem pushAll_length_le_add (m : Memory) (bs : List Byte) : (m.pushAll bs).length ≤ m.length + bs.length := by
  rw [pushAll_eq_append_take, List.length_append]
  exact Nat.add_le_add_left (List.length_take_le' _ _) _

/-- The bytes of a decoded frame and those after it are the bytes received (R103). -/
theorem decodeRx_length {bytes rest : List Byte} {fields : List Word} {chk : Word}
    (h : decode .rx bytes = .ok (.mframe fields chk, rest)) :
    (measurementFrame fields chk).length + rest.length = bytes.length := by
  simp only [decode] at h
  unfold decodeRx at h
  split at h
  · rename_i s0 s1 lh ll body
    split at h
    · simp only at h
      split at h
      · rename_i hlegal
        split at h
        · rename_i ch cl rest' hdrop
          cases h
          obtain ⟨heven, h2, -⟩ := (legalLength_iff _).mp hlegal
          have hbody := congrArg List.length hdrop
          rw [List.length_drop, List.length_cons, List.length_cons] at hbody
          rw [length_measurementFrame, length_fieldsOf, List.length_take]
          simp only [List.length_cons]
          omega
        · cases h
      · cases h
    · cases h
  · cases h

/-- A burst brings no more than its bytes; those a frame leaves over come next. -/
theorem receiveBurst_arriving {s t : State} {bytes : List Byte} (h : s.receiveBurst bytes = .next t) :
    t.block.rxq.length + t.arriving ≤ s.block.rxq.length + bytes.length + s.arriving ∧
      t.sched.length + t.arriving ≤ s.sched.length + bytes.length + s.arriving := by
  unfold State.receiveBurst at h
  split at h
  · rename_i i rest hd
    obtain ⟨fields, chk, rfl⟩ := decodeRx_mframe hd
    have hlen := decodeRx_length hd
    have hframe := length_measurementFrame fields chk
    have hqueue := pushAll_length_le_add s.block.rxq (measurementFrame fields chk)
    cases h
    cases rest with
    | nil =>
      simp only [State.rescheduleBurst, mapBlock_block, mapBlock_sched, rxPushAll_rxq, State.arriving] at *
      omega
    | cons b q =>
      simp only [State.rescheduleBurst, mapBlock_block, mapBlock_sched, rxPushAll_rxq, State.arriving, List.map_cons,
        List.sum_cons, Event.byteCount, List.length_cons] at *
      omega
  · have hqueue := pushAll_length_le_add s.block.rxq bytes
    cases h
    simp only [mapBlock_block, mapBlock_sched, rxPushAll_rxq, State.arriving] at *
    omega

/-- A scheduled event is used up: queued and scheduled bytes together get no more, and less is left of the schedule. -/
theorem step_scheduled_arriving {s t : State} {e : Event} {es : List Event} (hs : s.sched = e :: es)
    (h : step s = .next t) :
    t.recurring = s.recurring ∧ t.block.rxq.length + t.arriving ≤ s.block.rxq.length + s.arriving ∧
      t.sched.length + t.arriving < s.sched.length + s.arriving := by
  have hfifo := queueIsFirstInFirstOut s t h
  have hnext : s.nextEvent = e := by rw [State.nextEvent, hs]; rfl
  have harr := arriving_cons hs
  rw [step_scheduled hs] at h
  obtain ⟨hrec, hsched⟩ := takeEvent_schedule h
  refine ⟨hrec, ?_⟩
  rw [harr, hs, List.length_cons]
  cases e with
  | rxPush b =>
    cases h
    have hqueue := push_length_le_succ s.block.rxq b
    simp only [mapBlock_block, mapBlock_sched, rxPush_rxq, State.arriving, Event.byteCount]
    omega
  | rxBurst bytes =>
    have hburst := receiveBurst_arriving h
    simp only [State.arriving, Event.byteCount] at *
    omega
  | _ =>
    have hsched : t.sched = es := by simpa using hsched
    have hqueue : t.block.rxq.length ≤ s.block.rxq.length := by
      obtain e | ⟨he, -⟩ | ⟨-, -, b, e⟩ | ⟨e, -⟩ := hfifo
      · rw [e]
      · rw [hnext] at he; cases he
      · rw [e]; exact Nat.le_succ _
      · rw [e]; exact Nat.zero_le _
    simp only [State.arriving, hsched, Event.byteCount]
    omega

/-! ### Every operation ends -/

/-- What the operation in progress has before it: a SKIP the bytes queued and scheduled, a DECODE the rest of its frame. -/
def State.workLeft (s : State) : Nat :=
  if s.block.phase = .skip then s.block.rxq.length + s.arriving else s.block.frameLeft

/-- The measure that every step of an operation lowers: the work left, then what is left of the schedule. -/
def State.remaining (s : State) : ℕ ×ₗ ℕ := toLex (s.workLeft, s.sched.length + s.arriving)

/-- Every step ends the operation in progress or lowers what remains of it, when a SKIP has no bytes recurring. -/
theorem step_lowers_remaining {s : State} (hb : s.block.Bounded) (hbusy : s.block.phase ≠ .idle)
    (hquiet : s.block.phase = .skip → ∀ e ∈ s.recurring, e.arrives = false) :
    ∃ t, step s = .next t ∧ t.recurring = s.recurring ∧
      (t.block.phase = .idle ∨ (s.block.Continues t.block ∧ t.remaining < s.remaining)) := by
  cases hs : s.sched with
  | nil =>
    obtain ⟨t, ht, hst, hrt, hidle | hadv⟩ := step_default_advances hb hbusy hs
    · exact ⟨t, ht, hrt, .inl hidle⟩
    · refine ⟨t, ht, hrt, .inr ⟨hadv.toContinues, Prod.Lex.toLex_lt_toLex.mpr (.inl ?_)⟩⟩
      by_cases hskip : s.block.phase = .skip
      · have harr : t.arriving = 0 := arriving_of_quiet (hst ▸ hquiet hskip)
        have hqueue := hadv.queue
        simp only [State.workLeft, hskip, hadv.skip.mpr hskip, if_true]
        omega
      · simp only [State.workLeft, hskip, mt hadv.skip.mp hskip, if_false]
        exact hadv.frame hskip
  | cons e es =>
    obtain ⟨t, ht⟩ := step_total hb.nreq
    obtain ⟨hrt, hqueue, hsched⟩ := step_scheduled_arriving hs ht
    refine ⟨t, ht, hrt, (step_continues hb hbusy ht).imp id fun hc => ⟨hc, ?_⟩⟩
    refine Prod.Lex.toLex_lt_toLex'.mpr ⟨?_, fun _ => hsched⟩
    by_cases hskip : s.block.phase = .skip
    · simpa only [State.workLeft, hskip, hc.skip.mpr hskip, if_true] using hqueue
    · simpa only [State.workLeft, hskip, mt hc.skip.mp hskip, if_false] using hc.left

/-- An operation ends, a SKIP if no recurring event brings bytes. -/
theorem operation_ends {s : State} (hb : s.block.Bounded) (hbusy : s.block.phase ≠ .idle)
    (hquiet : s.block.phase = .skip → ∀ e ∈ s.recurring, e.arrives = false) :
    ∃ (n : Nat) (t : State), Host.Core.run Sys2Proof.core n s = .next t ∧ t.block.phase = .idle := by
  induction hm : s.remaining using WellFoundedLT.induction generalizing s with
  | ind m ih =>
    obtain ⟨t, ht, hrt, hidle | ⟨hc, hlt⟩⟩ := step_lowers_remaining hb hbusy hquiet
    · exact ⟨1, t, core_run_succ 0 ht, hidle⟩
    · obtain ⟨n, u, hu, hidle⟩ := ih _ (hm ▸ hlt) hc.bounded hc.busy (fun h => hrt ▸ hquiet (hc.skip.mp h)) rfl
      exact ⟨n + 1, u, (core_run_succ n ht).trans hu, hidle⟩

/-- Settles O41: a step with nothing scheduled takes a byte or ends the operation, any other uses up the schedule. -/
theorem operationsEnd : Obligations.OperationsEnd :=
  fun _ hl hbusy => ⟨quiet_operation_ends hl.bounded hbusy, operation_ends hl.bounded hbusy⟩

end Sys2Proof.Machine
end

section
/-! PROOF. An endless supply of bytes that are no signature byte keeps a SKIP running (R79 (c)). -/

namespace Sys2Proof.Machine

theorem mem_push {m : Memory} {b c : Byte} (h : c ∈ m.push b) : c ∈ m ∨ c = b := by
  by_cases hroom : m.length < Config.rxDepth
  · rw [push_of_room b hroom] at h
    simpa using h
  · rw [push_of_full b (Nat.not_lt.mp hroom)] at h
    exact .inl h

theorem push_ne_nil (m : Memory) (b : Byte) : m.push b ≠ [] := by
  by_cases hroom : m.length < Config.rxDepth
  · rw [push_of_room b hroom]
    simp
  · rw [push_of_full b (Nat.not_lt.mp hroom)]
    rintro rfl
    exact hroom (Nat.lt_of_lt_of_le (by decide) rxDepth_ge)

/-- A SKIP that is fed: no signature byte is queued or coming, and before the recurring bytes come anew a byte is there to be
discarded. -/
structure State.FedSkip (bytes : List Byte) (s : State) : Prop where
  phase : s.block.phase = .skip
  queue : ∀ b ∈ s.block.rxq, b ≠ 0x42#8
  recurring : s.recurring = bytes.map Event.rxPush
  fed : ∃ coming : List Byte, s.sched = coming.map Event.rxPush ∧ (∀ b ∈ coming, b ≠ 0x42#8) ∧
    (s.block.rxq ≠ [] ∨ coming ≠ [])

/-- Every step keeps a fed SKIP fed: it discards a byte, after which the recurring ones come, or takes one of these. -/
theorem step_fedSkip {s : State} {bytes : List Byte} (hne : bytes ≠ []) (hsig : ∀ b ∈ bytes, b ≠ 0x42#8)
    (h : s.FedSkip bytes) : ∃ t, step s = .next t ∧ t.FedSkip bytes := by
  obtain ⟨hp, hq, hr, coming, hs, hcoming, hfed⟩ := h
  cases coming with
  | nil =>
    have he : s.block.microEnabled = true := (microEnabled_iff _).mpr (.inl hp)
    obtain ⟨b, q, hbq⟩ := List.exists_cons_of_ne_nil (hfed.resolve_right fun h => h rfl)
    rw [hbq, List.forall_mem_cons] at hq
    have hstep : skipStep s.block = { s.block with rxq := q } := by
      simp only [skipStep, hbq]
      exact if_neg hq.1
    exact ⟨_, step_default_micro hs he ((micro_skip hp).trans (congrArg _ hstep)), hp, hq.2, hr, bytes, hr, hsig, .inr hne⟩
  | cons b rest =>
    rw [List.forall_mem_cons] at hcoming
    refine ⟨_, step_scheduled hs, hp, fun c hc => ?_, hr, rest, rfl, hcoming.2, .inl (push_ne_nil _ b)⟩
    obtain hc | rfl := mem_push hc
    · exact hq c hc
    · exact hcoming.1

/-- Settles O60: a SKIP that is fed stays so. -/
theorem endlessArrivalsKeepASkipRunning : Obligations.EndlessArrivalsKeepASkipRunning := by
  intro s bytes hp hne hq hs hr hbytes hsig n
  have hfed : s.FedSkip bytes := ⟨hp, hq, hr, [], hs, by simp, .inl hne⟩
  clear hp hne hq hs hr
  induction n generalizing s with
  | zero => exact ⟨s, rfl, hfed.phase⟩
  | succ n ih =>
    obtain ⟨t, ht, htfed⟩ := step_fedSkip hbytes hsig hfed
    obtain ⟨u, hu, hphase⟩ := ih t htfed
    exact ⟨u, (core_run_succ n ht).trans hu, hphase⟩

end Sys2Proof.Machine
end

section
/-! PROOF. The request word (R100, R101, R106): its two fields, and the decoder as one equation for each operation. -/

namespace Sys2Proof

/-! ### The two fields of a request word -/

@[simp] theorem requestWord_op (op arg : BitVec 4) : (requestWord op arg).extractLsb' 4 4 = op :=
  BitVec.extractLsb'_append_eq_left

@[simp] theorem requestWord_arg (op arg : BitVec 4) : (requestWord op arg).extractLsb' 0 4 = arg :=
  BitVec.extractLsb'_append_eq_right

theorem exists_requestWord (w : Byte) : ∃ op arg : BitVec 4, w = requestWord op arg :=
  ⟨w.extractLsb' 4 4, w.extractLsb' 0 4, (BitVec.extractLsb'_append_extractLsb' (w := 4) (len := 4)).symm⟩

/-! ### The decoder by operation -/

/-- `SKIP` has no operand (R100, R106). -/
theorem decodeRequest_skip (arg : BitVec 4) : decodeRequest (requestWord 1#4 arg) =
    if arg = 0#4 then .ok .skip else .error (.reservedOperand (requestWord 1#4 arg)) := by
  simp [decodeRequest]

/-- `DECODE` takes up to thirteen values (R100, R106). -/
theorem decodeRequest_decode (arg : BitVec 4) : decodeRequest (requestWord 2#4 arg) =
    if arg.toNat ≤ 13 then .ok (.decode arg) else .error (.reservedOperand (requestWord 2#4 arg)) := by
  simp [decodeRequest]

/-- `FLUSH` has no operand (R100, R106). -/
theorem decodeRequest_flush (arg : BitVec 4) : decodeRequest (requestWord 4#4 arg) =
    if arg = 0#4 then .ok .flush else .error (.reservedOperand (requestWord 4#4 arg)) := by
  simp [decodeRequest]

/-- Every other operation but `ENCODE` is unknown (R106). -/
theorem decodeRequest_unknown {op : BitVec 4} (arg : BitVec 4) (h1 : op ≠ 1#4) (h2 : op ≠ 2#4) (h3 : op ≠ 3#4)
    (h4 : op ≠ 4#4) : decodeRequest (requestWord op arg) = .error (.reservedOperation (requestWord op arg)) := by
  simp [decodeRequest, h1, h2, h3, h4]

theorem decodeRequest_encodeRsvd67 (x : BitVec 1) :
    decodeRequest (requestWord 3#4 (3#3 ++ x)) = .ok (.encodeRsvd67 x) := by
  revert x; decide

theorem decodeRequest_encodeRsvd815 (x : BitVec 3) :
    decodeRequest (requestWord 3#4 (1#1 ++ x)) = .ok (.encodeRsvd815 x) := by
  revert x; decide

/-- The operand of `ENCODE`: a command of the list, or one of the two reserved groups (R101). -/
theorem encodeOperand_cases (arg : BitVec 4) :
    arg = 0#4 ∨ arg = 1#4 ∨ arg = 2#4 ∨ arg = 3#4 ∨ arg = 4#4 ∨ arg = 5#4 ∨
      (∃ x : BitVec 1, arg = 3#3 ++ x) ∨ ∃ x : BitVec 3, arg = 1#1 ++ x := by
  revert arg; decide

/-! ### Encoding and decoding of request words -/

/-- The instruction is one of the channel, and these bytes are its encoding. -/
def Instr.HasWord (i : Instr) (c : Channel) (word : List Byte) : Prop :=
  i.wellFormed = true ∧ i.channel = c ∧ encode i = word

/-- Every operand of `ENCODE` decodes, to the instruction it encodes (R101). -/
theorem decodeRequest_encode (arg : BitVec 4) :
    ∃ i, decodeRequest (requestWord 3#4 arg) = .ok i ∧ i.HasWord .opreq [requestWord 3#4 arg] := by
  obtain rfl | rfl | rfl | rfl | rfl | rfl | ⟨x, rfl⟩ | ⟨x, rfl⟩ := encodeOperand_cases arg
  · exact ⟨.encodeRead, rfl, rfl, rfl, rfl⟩
  · exact ⟨.encodePassive, rfl, rfl, rfl, rfl⟩
  · exact ⟨.encodeActive, rfl, rfl, rfl, rfl⟩
  · exact ⟨.encodeSleep, rfl, rfl, rfl, rfl⟩
  · exact ⟨.encodeWake, rfl, rfl, rfl, rfl⟩
  · exact ⟨.encodeReset, rfl, rfl, rfl, rfl⟩
  · exact ⟨.encodeRsvd67 x, decodeRequest_encodeRsvd67 x, rfl, rfl, rfl⟩
  · exact ⟨.encodeRsvd815 x, decodeRequest_encodeRsvd815 x, rfl, rfl, rfl⟩

/-- A word that decodes is the encoding of its instruction: reserved words have no meaning, the others one (R106). -/
theorem decodeRequest_sound {w : Byte} {i : Instr} (h : decodeRequest w = .ok i) : i.HasWord .opreq [w] := by
  obtain ⟨op, arg, rfl⟩ := exists_requestWord w
  by_cases h1 : op = 1#4
  · subst h1
    rw [decodeRequest_skip] at h
    split at h <;> cases h
    subst arg
    exact ⟨rfl, rfl, rfl⟩
  by_cases h2 : op = 2#4
  · subst h2
    rw [decodeRequest_decode] at h
    split at h <;> cases h
    exact ⟨(wellFormed_decode _).mpr ‹_›, rfl, rfl⟩
  by_cases h3 : op = 3#4
  · subst h3
    obtain ⟨j, hj, hreq⟩ := decodeRequest_encode arg
    cases hj.symm.trans h
    exact hreq
  by_cases h4 : op = 4#4
  · subst h4
    rw [decodeRequest_flush] at h
    split at h <;> cases h
    subst arg
    exact ⟨rfl, rfl, rfl⟩
  · rw [decodeRequest_unknown arg h1 h2 h3 h4] at h
    cases h

theorem decode_opreq_of_ok {w : Byte} {i : Instr} (h : decodeRequest w = .ok i) (rest : List Byte) :
    decode .opreq (w :: rest) = .ok (i, rest) := by
  simp only [decode, h]

/-- What is accepted on the request register is one word that decodes (R90). -/
theorem decode_opreq_ok {bytes rest : List Byte} {i : Instr} (h : decode .opreq bytes = .ok (i, rest)) :
    ∃ w, bytes = w :: rest ∧ decodeRequest w = .ok i := by
  cases bytes with
  | nil => cases h
  | cons w bytes =>
    simp only [decode] at h
    split at h <;> cases h
    exact ⟨w, rfl, ‹_›⟩

/-! ### Reserved words -/

/-- The request words that R106 has the block ignore are rejected. -/
theorem decodeRequest_reserved {op arg : BitVec 4}
    (h : op.toNat = 0 ∨ 5 ≤ op.toNat ∨ (op.toNat = 1 ∨ op.toNat = 4) ∧ arg ≠ 0#4 ∨ op.toNat = 2 ∧ 14 ≤ arg.toNat) :
    ∃ r, decodeRequest (requestWord op arg) = .error r := by
  have unknown (hop : op.toNat = 0 ∨ 5 ≤ op.toNat) : ∃ r, decodeRequest (requestWord op arg) = .error r := by
    refine ⟨_, decodeRequest_unknown arg ?_ ?_ ?_ ?_⟩ <;> (rintro rfl; exact absurd hop (by decide))
  obtain hop | hop | ⟨hop | hop, harg⟩ | ⟨hop, harg⟩ := h
  · exact unknown (.inl hop)
  · exact unknown (.inr hop)
  · obtain rfl : op = 1#4 := BitVec.eq_of_toNat_eq hop
    exact ⟨_, (decodeRequest_skip arg).trans (if_neg harg)⟩
  · obtain rfl : op = 4#4 := BitVec.eq_of_toNat_eq hop
    exact ⟨_, (decodeRequest_flush arg).trans (if_neg harg)⟩
  · obtain rfl : op = 2#4 := BitVec.eq_of_toNat_eq hop
    exact ⟨_, (decodeRequest_decode arg).trans (if_neg (by omega))⟩

/-- The operands of `ENCODE` above the command list decode to the reserved instructions (R197). -/
theorem decodeRequest_reservedEncode {arg : BitVec 4} (h : 6 ≤ arg.toNat) :
    (∃ x, decodeRequest (requestWord 3#4 arg) = .ok (.encodeRsvd67 x)) ∨
      ∃ x, decodeRequest (requestWord 3#4 arg) = .ok (.encodeRsvd815 x) := by
  obtain rfl | rfl | rfl | rfl | rfl | rfl | ⟨x, rfl⟩ | ⟨x, rfl⟩ := encodeOperand_cases arg
  iterate 6 · exact absurd h (by decide)
  · exact .inl ⟨x, decodeRequest_encodeRsvd67 x⟩
  · exact .inr ⟨x, decodeRequest_encodeRsvd815 x⟩

end Sys2Proof
end

section
/-! PROOF. The two frame formats (R91, R94): the decoder of each answers exactly the frames its encoder writes. -/

namespace Sys2Proof

/-! ### Command frames -/

/-- A code that names a command is the code in that command's frame (R96, R97). -/
theorem commandOfCode_sound {c0 c1 c2 : Byte} {i : Instr} (h : commandOfCode c0 c1 c2 = .ok i) :
    i.HasWord .tx (commandFrame (c0, c1, c2)) := by
  unfold commandOfCode at h
  split at h
  · cases h
  obtain rfl : c0 = 0x00#8 := not_not.mp ‹_›
  split_ifs at h with hread hpassive hactive hsleep hwake <;> cases h
  · obtain ⟨rfl, rfl⟩ := hread; exact ⟨rfl, rfl, rfl⟩
  · obtain ⟨rfl, rfl⟩ := hpassive; exact ⟨rfl, rfl, rfl⟩
  · obtain ⟨rfl, rfl⟩ := hactive; exact ⟨rfl, rfl, rfl⟩
  · obtain ⟨rfl, rfl⟩ := hsleep; exact ⟨rfl, rfl, rfl⟩
  · obtain ⟨rfl, rfl⟩ := hwake; exact ⟨rfl, rfl, rfl⟩

/-- The sum of a command frame is the one the decoder asks for (R94). -/
theorem decodeTx_frameOf (cmd : Command) {c0 c1 c2 : Byte} {i : Instr} (rest : List Byte)
    (hcmd : commandCode cmd = some (c0, c1, c2)) (hcode : commandOfCode c0 c1 c2 = .ok i) :
    decodeTx (frameOf cmd ++ rest) = .ok (i, rest) := by
  simp [frameOf, hcmd, commandFrame, beBytes, decodeTx, hcode]

/-- What is accepted on the transmit stream is the frame of a code that names a command (R94). -/
theorem decodeTx_ok {bytes rest : List Byte} {i : Instr} (h : decodeTx bytes = .ok (i, rest)) :
    ∃ c0 c1 c2, commandOfCode c0 c1 c2 = .ok i ∧ bytes = commandFrame (c0, c1, c2) ++ rest := by
  unfold decodeTx at h
  split at h
  case h_2 => cases h
  rename_i s0 s1 c0 c1 c2 hi lo rest'
  split at h
  case isFalse => cases h
  rename_i hsig
  obtain ⟨rfl, rfl⟩ := hsig
  split at h
  · cases h
  rename_i j hcode
  split at h
  case isFalse => cases h
  rename_i hsum
  cases h
  exact ⟨c0, c1, c2, hcode, by simp [commandFrame, beBytes, ← hsum]⟩

/-! ### Measurement frames -/

/-- A legal length field is the length field of the payload it announces (R92). -/
theorem lengthField_of_legal {l : Word} (h : legalLength l = true) : lengthField ((l.toNat - 2) / 2) = l := by
  obtain ⟨heven, h2, h56⟩ := (legalLength_iff l).mp h
  apply BitVec.eq_of_toNat_eq
  rw [lengthField_toNat (by omega)]
  omega

/-- The decoder splits a frame at the payload its length field announces (R103). -/
theorem decodeRx_measurementFrame {fields : List Word} (chk : Word) (rest : List Byte) (h : fields.length ≤ 27) :
    decodeRx (measurementFrame fields chk ++ rest) = .ok (.mframe fields chk, rest) := by
  have hlen : (lengthField fields.length).toNat - 2 = (fieldBytes fields).length := by
    rw [lengthField_toNat h, length_fieldBytes]; omega
  rw [measurementFrame_eq]
  simp [decodeRx, Config.sig0, Config.sig1, legalLength_lengthField h, hlen, fieldsOf_fieldBytes]

/-- What is accepted on the receive stream is a frame of a legal length (R91, R104). -/
theorem decodeRx_ok {bytes rest : List Byte} {i : Instr} (h : decodeRx bytes = .ok (i, rest)) :
    ∃ fields chk, i = .mframe fields chk ∧ fields.length ≤ 27 ∧ bytes = measurementFrame fields chk ++ rest := by
  unfold decodeRx at h
  split at h
  case h_2 => cases h
  rename_i s0 s1 lh ll body
  split at h
  case isFalse => cases h
  rename_i hsig
  obtain ⟨rfl, rfl⟩ := hsig
  simp only at h
  split at h
  case isFalse => cases h
  rename_i hlegal
  split at h
  case h_2 => cases h
  rename_i ch cl rest' hdrop
  cases h
  obtain ⟨heven, h2, h56⟩ := (legalLength_iff _).mp hlegal
  have hpayload : (body.take ((be16 lh ll).toNat - 2)).length = (be16 lh ll).toNat - 2 := by
    have hbody := congrArg List.length hdrop
    rw [List.length_drop, List.length_cons] at hbody
    rw [List.length_take]; omega
  have hfields := length_fieldsOf (body.take ((be16 lh ll).toNat - 2))
  rw [hpayload] at hfields
  refine ⟨_, _, rfl, by omega, ?_⟩
  rw [measurementFrame_eq, hfields, lengthField_of_legal hlegal, fieldBytes_fieldsOf _ (by omega)]
  simp only [hi_be16, lo_be16, List.cons_append, List.append_assoc, List.nil_append]
  rw [← hdrop, List.take_append_drop]
  rfl

/-! ### The decoder and the encoder -/

/-- Settles O30: each format's decoder reads back what its encoder wrote. -/
theorem decodeOfEncodeIsIdentity : Obligations.DecodeOfEncodeIsIdentity := by
  intro i rest hwf
  cases i with
  | decode n => exact decode_opreq_of_ok ((decodeRequest_decode n).trans (if_pos ((wellFormed_decode n).mp hwf))) rest
  | encodeRsvd67 x => exact decode_opreq_of_ok (decodeRequest_encodeRsvd67 x) rest
  | encodeRsvd815 x => exact decode_opreq_of_ok (decodeRequest_encodeRsvd815 x) rest
  | mframe fields chk => exact decodeRx_measurementFrame chk rest ((wellFormed_mframe fields chk).mp hwf)
  | cmdRead => exact decodeTx_frameOf .readData rest rfl rfl
  | cmdPassive => exact decodeTx_frameOf .setPassive rest rfl rfl
  | cmdActive => exact decodeTx_frameOf .setActive rest rfl rfl
  | cmdSleep => exact decodeTx_frameOf .sleep rest rfl rfl
  | cmdWake => exact decodeTx_frameOf .wake rest rfl rfl
  | skip | encodeRead | encodePassive | encodeActive | encodeSleep | encodeWake | encodeReset | flush =>
    exact decode_opreq_of_ok rfl rest

/-- Settles O31: on each channel what is accepted is a word or a frame that its encoder writes. -/
theorem decodedBytesAreTheEncoding : Obligations.DecodedBytesAreTheEncoding := by
  intro c bytes i rest h
  cases c with
  | opreq =>
    obtain ⟨w, rfl, hw⟩ := decode_opreq_ok h
    obtain ⟨hwf, hchannel, hencode⟩ := decodeRequest_sound hw
    exact ⟨hwf, hchannel, by rw [hencode, List.singleton_append]⟩
  | tx =>
    obtain ⟨c0, c1, c2, hcode, rfl⟩ := decodeTx_ok h
    obtain ⟨hwf, hchannel, hencode⟩ := commandOfCode_sound hcode
    exact ⟨hwf, hchannel, by rw [hencode]⟩
  | rx =>
    obtain ⟨fields, chk, rfl, hfields, rfl⟩ := decodeRx_ok h
    exact ⟨(wellFormed_mframe fields chk).mpr hfields, rfl, rfl⟩

/-- Settles O29: words of the tables, written out. -/
theorem tableWordsDecode : Obligations.TableWordsDecode := by
  unfold Obligations.TableWordsDecode
  decide

end Sys2Proof
end

section
/-! PROOF. Reserved request words on an idle block (R106, R197), and command frames on the wire (R97). -/

namespace Sys2Proof.Machine

/-- An idle block takes a word that does not decode and ignores it (R106). -/
theorem acceptRequest_reserved {s after : State} {w : Byte} {r : Reject} (hi : s.block.phase = .idle)
    (hd : decodeRequest w = .error r) : s.acceptRequest after w = .next after := by
  unfold State.acceptRequest
  rw [if_pos hi, hd]

/-- A reserved `ENCODE` word drops the frame of an idle block (R197). -/
theorem acceptRequest_reservedEncode {s after : State} {arg : BitVec 4} (hi : s.block.phase = .idle)
    (ha : after.block.phase = .idle) (harg : 6 ≤ arg.toNat) :
    s.acceptRequest after (requestWord 3#4 arg) = .next (after.mapBlock Block.dropTx) := by
  obtain ⟨x, hx⟩ | ⟨x, hx⟩ := decodeRequest_reservedEncode harg
  · exact (acceptRequest_idle hi (decode_opreq_of_ok hx [])).trans (whenIdle_idle _ ha)
  · exact (acceptRequest_idle hi (decode_opreq_of_ok hx [])).trans (whenIdle_idle _ ha)

/-- Settles O35: a reserved word does not decode, but for `ENCODE`, where it decodes to an instruction that drops the frame. -/
theorem reservedWordsAreIgnored : Obligations.ReservedWordsAreIgnored := by
  intro s op arg ps es hs ht hp hi
  rw [step_programRequest hs ht hp]
  refine ⟨fun hreserved => ?_, fun hop harg => ?_⟩
  · obtain ⟨r, hr⟩ := decodeRequest_reserved hreserved
    exact acceptRequest_reserved hi hr
  · obtain rfl : op = 3#4 := BitVec.eq_of_toNat_eq hop
    exact acceptRequest_reservedEncode hi hi harg

/-- Settles O23: the frame of each command, byte by byte. -/
theorem commandFramesGoOutOnTheWire : Obligations.CommandFramesGoOutOnTheWire :=
  fun _ => ⟨rfl, rfl, rfl, rfl, rfl⟩

end Sys2Proof.Machine
end

section
/-! PROOF. SKIP and FLUSH (R130 to R136): the micro-step of SKIP in its three cases, the run of a SKIP with no arrival, and the
two request steps. -/

namespace Sys2Proof.Machine

/-! ### The micro-step, case by case -/

/-- Exhausted input ends a SKIP (R131). -/
theorem micro_skip_nil {k : Block} (hp : k.phase = .skip) (hq : k.rxq = []) : k.micro = .ok { k with phase := .idle } := by
  rw [micro_skip hp, skipStep, hq]

/-- A signature byte ends a SKIP and stays queued (R131). -/
theorem micro_skip_signature {k : Block} {q : List Byte} (hp : k.phase = .skip) (hq : k.rxq = 0x42#8 :: q) :
    k.micro = .ok { k with phase := .idle } := by
  rw [micro_skip hp, skipStep, hq]
  exact congrArg _ (if_pos rfl)

/-- Any other byte is discarded and the SKIP goes on (R131). -/
theorem micro_skip_discard {k : Block} {b : Byte} {q : List Byte} (hp : k.phase = .skip) (hq : k.rxq = b :: q)
    (hb : b ≠ 0x42#8) : k.micro = .ok { k with rxq := q } := by
  rw [micro_skip hp, skipStep, hq]
  exact congrArg _ (if_neg hb)

/-- Settles O4: a micro-step of a SKIP is always enabled, so none ever waits. -/
theorem skipMicroStep : Obligations.SkipMicroStep := by
  intro k hp
  have hwaiting : k.waiting = false := Bool.eq_false_iff.mpr fun hw => ((waiting_iff k).mp hw).1.2 hp
  exact ⟨(microEnabled_iff k).mpr (.inl hp), hwaiting, micro_skip_nil hp, fun _ => micro_skip_signature hp,
    fun _ _ => micro_skip_discard hp⟩

/-- Settles O6: neither of the other cases ends a SKIP with bytes left. -/
theorem skipEndsOnSignature : Obligations.SkipEndsOnSignature := by
  intro k k' hp hk hidle hne
  cases hq : k.rxq with
  | nil =>
    cases (micro_skip_nil hp hq).symm.trans hk
    exact absurd hq hne
  | cons b q =>
    by_cases hb : b = 0x42#8
    · subst hb
      cases (micro_skip_signature hp hq).symm.trans hk
      exact congrArg List.head? hq
    · cases (micro_skip_discard hp hq hb).symm.trans hk
      cases hp.symm.trans hidle

/-! ### A SKIP with no arrival (R132) -/

/-- While no signature byte is at the head, each micro-step discards one byte. -/
theorem run_skip_discards {k : Block} {j : Nat} (hp : k.phase = .skip) (hj : j ≤ k.rxq.length)
    (hsig : ∀ b ∈ k.rxq.take j, b ≠ 0x42#8) : Block.run j k = .ok { k with rxq := k.rxq.drop j } := by
  induction j generalizing k with
  | zero => rfl
  | succ j ih =>
    cases hq : k.rxq with
    | nil => simp [hq] at hj
    | cons b q =>
      rw [hq, List.take_succ_cons, List.forall_mem_cons] at hsig
      rw [hq, List.length_cons, Nat.succ_le_succ_iff] at hj
      rw [run_succ_ok j (micro_skip_discard hp hq hsig.1)]
      exact ih hp hj hsig.2

/-- At the signature byte, or at the end of the queue, one micro-step ends the SKIP. -/
theorem run_skip_ends {k : Block} (hp : k.phase = .skip) (h : k.rxq.head? = some 0x42#8 ∨ k.rxq = []) :
    Block.run 1 k = .ok { k with phase := .idle } := by
  obtain hsig | hnil := h
  · obtain ⟨q, hq⟩ := List.head?_eq_some_iff.mp hsig
    exact run_succ_ok 0 (micro_skip_signature hp hq)
  · exact run_succ_ok 0 (micro_skip_nil hp hnil)

/-- Settles O5: the bytes before the index are discarded one by one, and the next micro-step finds the end. -/
theorem skipDiscardsUpToSignature : Obligations.SkipDiscardsUpToSignature := by
  intro k i hp hi hsig hend
  have hrun (j : Nat) (hj : j ≤ i) : Block.run j k = .ok { k with rxq := k.rxq.drop j } :=
    run_skip_discards hp (hj.trans hi) fun b hb => hsig b (List.take_subset_take_left _ hj hb)
  have hlast : (k.rxq.drop i).head? = some 0x42#8 ∨ k.rxq.drop i = [] :=
    hend.imp (List.head?_drop.trans ·) fun h => List.drop_eq_nil_of_le h.ge
  exact ⟨hrun, (run_add (hrun i le_rfl)).trans (run_skip_ends hp hlast)⟩

/-! ### The request steps -/

/-- Settles O3: the word is operation 1 with operand 0, and an idle block takes the request. -/
theorem skipRequestStartsSkipping : Obligations.SkipRequestStartsSkipping :=
  ⟨decode_opreq_of_ok (decodeRequest_skip 0#4) [], fun _ => whenIdle_idle _⟩

/-- Settles O7: the word is operation 4 with operand 0, and the flush is the whole of its effect. -/
theorem flushEmptiesQueue : Obligations.FlushEmptiesQueue :=
  ⟨decode_opreq_of_ok (decodeRequest_flush 0#4) [], fun _ => whenIdle_idle _⟩

end Sys2Proof.Machine
end

section
/-! PROOF. The request step and the micro-steps of DECODE (R151 to R160), one equation for each way a step goes. -/

namespace Sys2Proof.Machine

/-! ### The request step -/

/-- The block at the start of a DECODE (R152). -/
def Block.started (n : BitVec 4) (k : Block) : Block := { k with nreq := n, sum := 0#16, nval := 0#4, phase := .sig0 }

/-- A DECODE that finds its bytes starts (R152). -/
theorem exec_decode_started {n : BitVec 4} {s : State} (hn : n.toNat ≤ 13) (hi : s.block.phase = .idle)
    (hl : 2 * n.toNat + 6 ≤ s.block.rxq.length) :
    exec (.decode n) s = .next { s with block := s.block.started n } :=
  execDecode_start hn hi hl

/-- A DECODE that finds too few bytes answers NoData (R151). -/
theorem exec_decode_noData {n : BitVec 4} {s : State} (hn : n.toNat ≤ 13) (hi : s.block.phase = .idle)
    (hl : s.block.rxq.length < 2 * n.toNat + 6) :
    exec (.decode n) s = .next { s with block := { s.block with status := .noData } } := by
  have hfew : s.block.avail < threshold n := by simp only [Block.avail, threshold]; omega
  have hstart : startDecode n s.block = { s.block with status := .noData } := by
    rw [startDecode, if_pos hfew, Block.raise, ← hi]
  exact (if_pos hn).trans ((whenIdle_idle _ hi).trans (congrArg _ (mapBlock_of_eq hstart)))

/-- The request word of `DECODE n` is operation 2 with operand `n` (R100). -/
theorem decodeWord_eq (n : BitVec 4) : 0x20#8 + n.setWidth 8 = requestWord 2#4 n := by
  revert n; decide

/-- Settles O8: the request step asks whether `2n + 6` bytes are queued. -/
theorem decodeStartsWhenEnoughBytesWait : Obligations.DecodeStartsWhenEnoughBytesWait := by
  intro s n hn hi
  refine ⟨?_, exec_decode_noData hn hi, exec_decode_started hn hi⟩
  rw [decodeWord_eq]
  exact decode_opreq_of_ok ((decodeRequest_decode n).trans (if_pos hn)) []

/-! ### The signature -/

/-- The right second byte leads to the length field (R154). -/
theorem sig1Byte_right {b : Byte} (k : Block) (hb : b = 0x4D#8) : sig1Byte b k = { k.addSum b with phase := .lenh } :=
  if_pos hb

/-- A wrong second byte ends the DECODE (R154). -/
theorem sig1Byte_wrong {b : Byte} (k : Block) (hb : b ≠ 0x4D#8) : sig1Byte b k = (k.addSum b).raise .readError :=
  if_neg hb

/-- Settles O9: the step on the first byte has one way to go, that on the second two. -/
theorem onlyTheSecondSignatureByteIsCompared : Obligations.OnlyTheSecondSignatureByteIsCompared := by
  intro k b q hq
  refine ⟨fun hp => micro_sig0 hp hq, fun hp hb => ?_, fun hp hb => ?_⟩
  · rw [micro_sig1 hp hq, sig1Byte_right _ hb]
    rfl
  · rw [micro_sig1 hp hq, sig1Byte_wrong _ hb]
    rfl

/-! ### The length field -/

/-- A rejected length field is latched and ends the DECODE (R157). -/
theorem lenlByte_bad {b : Byte} {k : Block} {l : Word} (hl : l = be16 k.hold b)
    (hbad : l.toNat % 2 = 1 ∨ l = 0#16 ∨ 56 < l.toNat) :
    lenlByte b k = ({ k.addSum b with len := l } : Block).raise .frameLengthMismatch := by
  subst hl
  exact if_pos ((badLength_iff _ _).mpr hbad)

/-- An accepted length field leads to the payload, or past an empty one to the checksum (R157). -/
theorem lenlByte_good {b : Byte} {k : Block} {l : Word} (hl : l = be16 k.hold b) (heven : l.toNat % 2 = 0)
    (h2 : 2 ≤ l.toNat) (h56 : l.toNat ≤ 56) :
    lenlByte b k = { k.addSum b with len := l, pos := 0#6, phase := if l = 2#16 then .chkh else .pay } := by
  have hgood : ¬ badLength k.nreq l = true := by
    rw [badLength_iff]
    rintro (hodd | rfl | hbig)
    · omega
    · exact absurd h2 (by decide)
    · omega
  subst hl
  refine (if_neg hgood).trans ?_
  split <;> rfl

/-- Settles O10: the length check on the complete field. -/
theorem lengthIsCheckedWhenComplete : Obligations.LengthIsCheckedWhenComplete := by
  intro k b q l hq hl
  refine ⟨fun hp => micro_lenh hp hq, fun hp hbad => ?_, fun hp h2 => ?_, fun hp heven h4 h56 => ?_⟩
  · rw [micro_lenl hp hq, lenlByte_bad (k := { k with rxq := q }) hl hbad]
    rfl
  · have hl2 : l.toNat = 2 := congrArg BitVec.toNat h2
    rw [micro_lenl hp hq, lenlByte_good (k := { k with rxq := q }) hl (by omega) (by omega) (by omega), if_pos h2]
    rfl
  · have hne : l ≠ 2#16 := by
      rintro rfl
      exact absurd h4 (by decide)
    rw [micro_lenl hp hq, lenlByte_good (k := { k with rxq := q }) hl heven (by omega) h56, if_neg hne]
    rfl

/-! ### The payload -/

/-- Settles O11: the three ways of a payload byte. -/
theorem payloadByteIsHeldStoredOrDiscarded : Obligations.PayloadByteIsHeldStoredOrDiscarded := by
  intro k b q hp hq hn hlt
  obtain ⟨k', hk⟩ := payByte_total (k := { k with rxq := q }) b hn
  have hmicro := (micro_pay hp hq).trans hk
  have hphase : (if k.pos.toNat + 1 = k.len.toNat - 2 then Phase.chkh else .pay) =
      if ({ k with rxq := q } : Block).atLastPayloadByte then .chkh else .pay := by
    simp only [Block.atLastPayloadByte, decide_eq_true_eq]
  refine ⟨k'.record, k'.nval, k'.hold, ?_⟩
  rw [hmicro, hphase]
  obtain ⟨hhigh, rfl⟩ | ⟨hlow, hwanted, hfield, rfl⟩ | ⟨hlow, hunwanted, rfl⟩ := payByte_cases hk
  · have heven : k.pos.toNat % 2 = 0 := of_decide_eq_true hhigh
    exact ⟨rfl, fun _ => ⟨rfl, rfl, rfl⟩, by omega, by omega⟩
  · have hodd : ¬ k.pos.toNat % 2 = 0 := of_decide_eq_false hlow
    simp only [Block.fieldIndex] at hwanted hfield
    refine ⟨rfl, by omega, fun _ _ => ⟨rfl, ?_, fun j hj => ?_⟩, by omega⟩
    · simp only [Block.fieldIndex, BitVec.toNat_ofNat]
      omega
    · simp only [Block.fieldIndex, Vector.getElem_setIfInBounds, eq_comm (a := j)]
      rfl
  · have hodd : ¬ k.pos.toNat % 2 = 0 := of_decide_eq_false hlow
    simp only [Block.fieldIndex] at hunwanted
    exact ⟨rfl, by omega, by omega, fun _ _ => ⟨rfl, rfl, rfl⟩⟩

/-! ### The checksum -/

/-- Settles O12: neither checksum byte is summed, and the second one ends the DECODE. -/
theorem checksumIsComparedAndNotSummed : Obligations.ChecksumIsComparedAndNotSummed := by
  intro k b q hq
  refine ⟨fun hp => micro_chkh hp hq, fun hp heq => ?_, fun hp hne => ?_⟩
  · rw [micro_chkl hp hq]
    exact congrArg (fun c => Except.ok (Block.raise _ c)) (if_pos heq)
  · rw [micro_chkl hp hq]
    exact congrArg (fun c => Except.ok (Block.raise _ c)) (if_neg hne)

end Sys2Proof.Machine
end

section
/-! PROOF. Whole DECODE operations (R161, R162): a frame that is rejected, a frame up to any byte of its payload, the checksum
after it, and where a DECODE can be left waiting. -/

namespace Sys2Proof

/-! ### The beginning of a frame -/

/-- A first byte, right or wrong, then the rest of a frame's header and the first `i` bytes of its payload (R91). -/
def framePrefix (b0 : Byte) (fields : List Word) (i : Nat) : List Byte :=
  b0 :: (summedBytes fields).tail.take (3 + i)

theorem framePrefix_eq (b0 : Byte) (fields : List Word) (i : Nat) :
    framePrefix b0 fields i = b0 :: 0x4D#8 :: hiByte (lengthField fields.length) ::
      loByte (lengthField fields.length) :: (fieldBytes fields).take i := by
  rw [framePrefix, Nat.add_comm]
  rfl

/-- With the right first byte it is the beginning of the summed bytes (R93). -/
theorem framePrefix_signature (fields : List Word) (i : Nat) :
    framePrefix 0x42#8 fields i = (summedBytes fields).take (4 + i) := by
  rw [show 4 + i = 3 + i + 1 by omega]
  rfl

/-- With the whole payload it is all the summed bytes, whatever the first byte (R93). -/
theorem framePrefix_whole (b0 : Byte) (fields : List Word) :
    framePrefix b0 fields (2 * fields.length) = b0 :: (summedBytes fields).tail := by
  rw [framePrefix, List.take_of_length_le (by rw [List.length_tail, length_summedBytes]; omega)]

/-- A frame cut in its payload or right after it. -/
theorem take_measurementFrame {fields : List Word} {i : Nat} (chk : Word) (hi : i ≤ 2 * fields.length) :
    (measurementFrame fields chk).take (4 + i) = framePrefix 0x42#8 fields i := by
  rw [framePrefix_signature, measurementFrame, List.take_append_of_le_length (by rw [length_summedBytes]; omega)]

/-- A frame cut between its two checksum bytes. -/
theorem take_measurementFrame_last (fields : List Word) (chk : Word) :
    (measurementFrame fields chk).take (4 + (2 * fields.length + 1)) =
      framePrefix 0x42#8 fields (2 * fields.length) ++ [hiByte chk] := by
  have hlen : 4 + (2 * fields.length + 1) = (summedBytes fields).length + 1 := by rw [length_summedBytes]; omega
  rw [hlen, measurementFrame, List.take_length_add_append, framePrefix_whole]
  rfl

/-- Beyond the payload a frame has no more bytes to sum (R93). -/
theorem take_summedBytes_last (fields : List Word) :
    (summedBytes fields).take (4 + (2 * fields.length + 1)) = framePrefix 0x42#8 fields (2 * fields.length) := by
  rw [framePrefix_whole]
  exact List.take_of_length_le (by rw [length_summedBytes]; omega)

/-- The first bytes of a payload hold the fields that are complete in them (R61). -/
theorem fieldsOf_take_fieldBytes (fields : List Word) (i : Nat) :
    fieldsOf ((fieldBytes fields).take i) = fields.take (i / 2) := by
  induction fields generalizing i with
  | nil => simp [fieldsOf]
  | cons f fields ih =>
    match i with
    | 0 => rfl
    | 1 => rfl
    | i + 2 =>
      rw [show (i + 2) / 2 = i / 2 + 1 by omega]
      simp [fieldsOf, ih]

/-- The beginning of a list, up to element `n` or to the end of the list, agrees with the list below `n`. -/
theorem getD_take_of_min_eq {α : Type} {xs : List α} {m n j : Nat} (d : α) (h : min m n = min xs.length n) (hj : j < n) :
    (xs.take m).getD j d = xs.getD j d := by
  rw [List.getD_eq_getElem?_getD, List.getD_eq_getElem?_getD, List.getElem?_take]
  split
  · rfl
  · rw [List.getElem?_eq_none (by omega)]

/-! ### The sum of a changed frame -/

/-- The byte sum sees a change of one byte (R215). -/
theorem sum16_change_ne {x y : Byte} (pre post : List Byte) (h : x ≠ y) :
    sum16 (pre ++ x :: post) ≠ sum16 (pre ++ y :: post) := by
  intro hsum
  rw [sum16_append, sum16_append, sum16_cons, sum16_cons, BitVec.add_right_inj, BitVec.add_left_inj] at hsum
  exact h (addByte_injective_byte (congrArg (0#16 + ·) hsum))

/-- Frames whose payloads have the same length but not the same byte sum do not have the same byte sum (R93). -/
theorem sum16_summedBytes_ne {fields fields' : List Word} (hlen : fields.length = fields'.length)
    (hsum : sum16 (fieldBytes fields) ≠ sum16 (fieldBytes fields')) :
    sum16 (summedBytes fields) ≠ sum16 (summedBytes fields') := by
  unfold summedBytes
  rw [hlen, sum16_append, sum16_append (ys := fieldBytes fields'), Ne, BitVec.add_right_inj]
  exact hsum

end Sys2Proof

namespace Sys2Proof.Machine

/-! ### Rejected frames -/

/-- Settles O16: the second byte ends the DECODE. -/
theorem decodeOfAWrongSignatureReportsReadError : Obligations.DecodeOfAWrongSignatureReportsReadError := by
  intro s n b0 b1 rest hn hi hq hl hb1
  refine ⟨_, exec_decode_started hn hi hl, ?_⟩
  rw [run_succ_ok 1 (micro_sig0 (k := s.block.started n) rfl hq), run_succ_ok 0 (micro_sig1 rfl rfl), sig1Byte_wrong _ hb1]
  simp [Block.run, Block.started, sig0Byte, Block.addSum, Block.raise, addByte]

/-- Settles O17: the fourth byte completes a length that is rejected. -/
theorem decodeOfABadLengthReportsMismatch : Obligations.DecodeOfABadLengthReportsMismatch := by
  intro s n b0 h l rest hn hi hq hl hbad
  refine ⟨_, exec_decode_started hn hi hl, ?_⟩
  rw [run_header (k := s.block.started n) rfl hq rfl]
  exact congrArg Except.ok (lenlByte_bad (l := h ++ l) rfl hbad)

/-! ### A frame up to any byte of its payload -/

/-- What a DECODE of `n` values on the block `k0` has left behind once every wanted field of the frame is stored. -/
structure Block.HoldsFields (k0 : Block) (n : BitVec 4) (fields : List Word) (k : Block) : Prop where
  len : k.len.toNat = 2 * fields.length + 2
  nval : k.nval.toNat = min fields.length n.toNat
  record : ∀ (j : Nat) (hj : j < 13),
    k.record[j] = if j < n.toNat then fields.getD j k0.record[j] else k0.record[j]
  status : k.status = k0.status
  txbuf : k.txbuf = k0.txbuf
  txvalid : k.txvalid = k0.txvalid

/-- The block once the length field of a frame with that many fields is accepted, with the bytes `q` still queued (R157). -/
def Block.pastHeader (n : BitVec 4) (b0 : Byte) (fieldCount : Nat) (q : List Byte) (k : Block) : Block :=
  { k with
    rxq := q, nreq := n, nval := 0#4, hold := hiByte (lengthField fieldCount), len := lengthField fieldCount, pos := 0#6
    sum := sum16 [b0, 0x4D#8, hiByte (lengthField fieldCount), loByte (lengthField fieldCount)]
    phase := if fieldCount = 0 then .chkh else .pay }

theorem pastHeader_len_toNat (n : BitVec 4) (b0 : Byte) {N : Nat} (q : List Byte) (k : Block) (hN : N ≤ 27) :
    (k.pastHeader n b0 N q).len.toNat = 2 * N + 2 := lengthField_toNat hN

/-- The header of a frame takes four micro-steps (R153 to R157). -/
theorem run_pastHeader {k : Block} {n : BitVec 4} {b0 : Byte} {N : Nat} {q : List Byte} (hN : N ≤ 27)
    (hq : k.rxq = b0 :: 0x4D#8 :: hiByte (lengthField N) :: loByte (lengthField N) :: q) :
    Block.run 4 (k.started n) = .ok (k.pastHeader n b0 N q) := by
  rw [run_header (k := k.started n) rfl hq rfl, lenlByte_legal hN rfl]
  simp [Block.pastHeader, Block.started, sum16, addByte]

/-- From the length field a DECODE runs over any first bytes of the payload, an empty payload included (R158). -/
theorem run_pastHeader_payload {k : Block} {n : BitVec 4} {b0 : Byte} {N : Nat} {p rest : List Byte} (hn : n.toNat ≤ 13)
    (hN : N ≤ 27) (hp : p.length ≤ 2 * N) :
    ∃ k', Block.run p.length (k.pastHeader n b0 N (p ++ rest)) = .ok k' ∧
      PayloadRun (k.pastHeader n b0 N (p ++ rest)) p rest k' := by
  have hlen := pastHeader_len_toNat n b0 (p ++ rest) k hN
  by_cases h0 : N = 0
  · subst h0
    obtain rfl : p = [] := List.length_eq_zero_iff.mp (by omega)
    exact ⟨_, rfl, {
      rxq := rfl
      phase := rfl
      pos := rfl
      sum := by simp
      hold := by simp
      nval := by simp [Block.pastHeader]
      record := by simp [fieldsOf]
      frame := ⟨rfl, rfl, rfl, rfl, rfl⟩ }⟩
  · exact run_payload (if_neg h0) rfl rfl rfl hn (by omega) (by omega) (by omega)

/-- Once the payload bytes complete as many wanted fields as the whole frame, they are stored (R158). -/
theorem PayloadRun.holdsFields {k k' : Block} {n : BitVec 4} {b0 : Byte} {fields : List Word} {i : Nat} {q rest : List Byte}
    (h : PayloadRun (k.pastHeader n b0 fields.length q) ((fieldBytes fields).take i) rest k') (hN : fields.length ≤ 27)
    (hi : i ≤ 2 * fields.length) (hw : min (i / 2) n.toNat = min fields.length n.toNat) :
    k.HoldsFields n fields k' := by
  obtain ⟨-, hlen, hstatus, htxbuf, htxvalid⟩ := h.frame
  have hcount : ((fieldBytes fields).take i).length = i := by simp [length_fieldBytes, hi]
  refine ⟨?_, ?_, fun j hj => ?_, hstatus, htxbuf, htxvalid⟩
  · rw [hlen, pastHeader_len_toNat _ _ _ _ hN]
  · rw [h.nval, hcount]
    exact hw
  · rw [h.record j hj, fieldsOf_take_fieldBytes]
    exact ite_congr rfl (getD_take_of_min_eq _ hw) fun _ => rfl

/-- A DECODE that finds a frame's header and `i` bytes of its payload consumes them, and stores the wanted fields when these
are complete among them (R153 to R158). -/
theorem run_framePrefix {k : Block} {n : BitVec 4} {b0 : Byte} {fields : List Word} {i : Nat} {rest : List Byte}
    (hn : n.toNat ≤ 13) (hN : fields.length ≤ 27) (hi : i ≤ 2 * fields.length)
    (hw : min (i / 2) n.toNat = min fields.length n.toNat) (hq : k.rxq = framePrefix b0 fields i ++ rest) :
    ∃ k', Block.run (4 + i) (k.started n) = .ok k' ∧ k'.rxq = rest ∧ k'.sum = sum16 (framePrefix b0 fields i) ∧
      k'.phase = (if i = 2 * fields.length then .chkh else .pay) ∧ k.HoldsFields n fields k' := by
  rw [framePrefix_eq] at hq ⊢
  have hcount : ((fieldBytes fields).take i).length = i := by simp [length_fieldBytes, hi]
  have hheader := run_pastHeader (n := n) hN hq
  obtain ⟨k', hrun, hpay⟩ := run_pastHeader_payload (k := k) (b0 := b0) (p := (fieldBytes fields).take i) (rest := rest) hn hN
    (hcount.trans_le hi)
  rw [hcount] at hrun
  refine ⟨k', (run_add hheader).trans hrun, hpay.rxq, ?_, ?_, hpay.holdsFields hN hi hw⟩
  · exact hpay.sum.trans (sum16_append _ _).symm
  · rw [hpay.phase, hcount, pastHeader_len_toNat _ _ _ _ hN, Nat.add_sub_cancel]

/-! ### The checksum -/

/-- The last two micro-steps compare the received checksum with the sum (R159, R160). -/
theorem run_checksum {k : Block} {chk : Word} {rest : List Byte} (hp : k.phase = .chkh) (hq : k.rxq = beBytes chk ++ rest) :
    Block.run 2 k = .ok { k with
      rxq := rest, hold := hiByte chk, phase := .idle, status := if chk = k.sum then .ok else .sumError } := by
  rw [run_succ_ok 1 (micro_chkh hp hq), run_succ_ok 0 (micro_chkl rfl rfl)]
  simp [Block.run, chkhByte, chklByte, Block.raise]

/-- Settles O14: the frame up to the end of its payload, then the checksum. -/
theorem decodeParsesWholeFrame : Obligations.DecodeParsesWholeFrame := by
  intro s n b0 fields chk rest hn hN hi hq hl
  have hwhole := framePrefix_whole b0 fields
  have hq' : s.block.rxq = framePrefix b0 fields (2 * fields.length) ++ (beBytes chk ++ rest) := by
    rw [hq, hwhole, ← List.append_assoc]
    rfl
  obtain ⟨k, hrun, hrest, hsum, hphase, hk⟩ := run_framePrefix hn hN le_rfl (by simp) hq'
  rw [if_pos rfl] at hphase
  have hend := (run_add hrun).trans (run_checksum hphase hrest)
  rw [show 4 + 2 * fields.length + 2 = 2 * fields.length + 6 by omega] at hend
  exact ⟨_, _, exec_decode_started hn hi hl, hend, rfl, rfl, hk.len, hsum.trans (congrArg _ hwhole), hk.nval, hk.record, rfl,
    hk.txbuf, hk.txvalid⟩

/-- Settles O19: the frame is parsed, and its sum differs from that of the frame the checksum was made for. -/
theorem changedPayloadByteReportsSumError : Obligations.ChangedPayloadByteReportsSumError := by
  intro s n fields fields' pre post x y rest hn hN hi hpay hpay' hxy hq hl
  have hlen : fields.length = fields'.length := by
    have hbytes := congrArg List.length hpay
    have hbytes' := congrArg List.length hpay'
    simp only [length_fieldBytes, List.length_append, List.length_cons] at hbytes hbytes'
    omega
  have hsum : sum16 (summedBytes fields) ≠ sum16 (summedBytes fields') :=
    sum16_summedBytes_ne hlen (hpay ▸ hpay' ▸ sum16_change_ne pre post hxy)
  obtain ⟨k1, k2, hexec, hrun, hphase, hrest, -, hk2, -, -, hstatus, -⟩ :=
    decodeParsesWholeFrame s n 0x42#8 fields' _ rest hn (hlen ▸ hN) hi hq hl
  refine ⟨k1, k2, hexec, hlen ▸ hrun, hphase, ?_, hrest⟩
  rw [hstatus, hk2]
  exact if_neg hsum

/-! ### A frame that stops short -/

/-- A DECODE that waits is ended by the timeout, which changes nothing else (R161). -/
theorem rxTimeout_waiting {k : Block} (hd : k.phase.decoding = true) (hq : k.rxq = []) :
    k.rxTimeout = { k with status := .readError, phase := .idle } :=
  if_pos ((waiting_iff k).mpr ⟨(decoding_iff _).mp hd, hq⟩)

/-- Settles O15: a cut in the payload or right after it leaves the DECODE there, a cut between the two checksum bytes one
micro-step later. -/
theorem decodeOfATruncatedFrameTimesOut : Obligations.DecodeOfATruncatedFrameTimesOut := by
  intro s n fields chk m hn hN hi hm hcut hq
  have hlong : 2 * n.toNat + 6 ≤ s.block.rxq.length := by
    rw [hq, encode, List.length_take, length_measurementFrame]
    omega
  have hstart := exec_decode_started hn hi hlong
  obtain ⟨i, rfl⟩ := Nat.exists_eq_add_of_le (show 4 ≤ m by omega)
  rw [encode] at hq
  obtain hpay | rfl : i ≤ 2 * fields.length ∨ i = 2 * fields.length + 1 := by omega
  · rw [take_measurementFrame chk hpay] at hq
    obtain ⟨k, hrun, hrest, hsum, hphase, hk⟩ :=
      run_framePrefix (rest := []) hn hN hpay (by omega) (hq.trans (List.append_nil _).symm)
    have hd : k.phase.decoding = true := by rw [hphase]; split <;> rfl
    rw [framePrefix_signature] at hsum
    exact ⟨_, _, hstart, hrun, hrest, rxTimeout_waiting hd hrest, hk.len, hsum, hk.nval, hk.record, hk.status⟩
  · rw [take_measurementFrame_last] at hq
    obtain ⟨k, hrun, hrest, hsum, hphase, hk⟩ := run_framePrefix hn hN le_rfl (by simp) hq
    rw [if_pos rfl] at hphase
    have hlast := (run_add hrun).trans (run_succ_ok 0 (micro_chkh hphase hrest))
    rw [← take_summedBytes_last] at hsum
    exact ⟨_, _, hstart, hlast, rfl, rxTimeout_waiting rfl rfl, hk.len, hsum, hk.nval, hk.record, hk.status⟩

/-- Settles O39: the bytes the request saw cover the header and every wanted field. -/
theorem timeoutFallsOnlyInTheTail : Obligations.TimeoutFallsOnlyInTheTail := by
  intro k hl hp hw
  obtain ⟨hbusy, hq⟩ := (waiting_iff k).mp hw
  have hd := (decoding_iff _).mpr hbusy
  have hqueued := hp.queued hd
  have hnval := hp.nval hd
  simp only [hq, threshold, List.length_nil] at hqueued
  cases hph : k.phase with
  | idle | skip => simp [hph] at hbusy
  | sig0 | sig1 | lenh | lenl =>
    simp only [Block.consumed, Block.summed, hph] at hqueued
    omega
  | pay =>
    obtain ⟨-, -, hpos⟩ := hl.pay hph
    simp only [Block.consumed, Block.summed, hph] at hqueued
    simp only [Block.written, hph] at hnval
    exact ⟨.inl rfl, by omega, by omega⟩
  | chkh =>
    simp only [Block.consumed, Block.summed, hph] at hqueued
    simp only [Block.written, hph] at hnval
    exact ⟨.inr (.inl rfl), hnval, by omega⟩
  | chkl =>
    simp only [Block.consumed, hph] at hqueued
    simp only [Block.written, hph] at hnval
    exact ⟨.inr (.inr rfl), hnval, by omega⟩

end Sys2Proof.Machine
end

section
/-! PROOF. ENCODE (R190 to R198): the frame it loads, the operands that load none, and a DECODE of a frame that is echoed. -/

namespace Sys2Proof.Machine

/-! ### The request step -/

/-- A command with a code: its signature, its code and their sum go to the buffer (R190). -/
theorem whenIdle_encodeCommand_code {s : State} {c : Command} {c0 c1 c2 : Byte} (hi : s.block.phase = .idle)
    (hcode : commandCode c = some (c0, c1, c2)) {sum : Word} (hsum : sum16 [Config.sig0, Config.sig1, c0, c1, c2] = sum) :
    s.whenIdle (encodeCommand c) = .next { s with block := { s.block with
      txbuf := #v[0x42#8, 0x4D#8, c0, c1, c2, hiByte sum, loByte sum], txvalid := true } } := by
  have hload : encodeCommand c s.block = s.block.loadTx c0 c1 c2 := by rw [encodeCommand, hcode]
  subst hsum
  exact (whenIdle_idle _ hi).trans (congrArg _ (mapBlock_of_eq hload))

/-- Settles O21: each command's code and the sum of its frame. -/
theorem encodeLoadsCommandFrame : Obligations.EncodeLoadsCommandFrame := by
  refine ⟨rfl, rfl, rfl, rfl, rfl, fun s hi => ⟨?_, ?_, ?_, ?_, ?_⟩⟩
  · exact whenIdle_encodeCommand_code (c := .readData) (sum := 0x0171#16) hi rfl rfl
  · exact whenIdle_encodeCommand_code (c := .setPassive) (sum := 0x0170#16) hi rfl rfl
  · exact whenIdle_encodeCommand_code (c := .setActive) (sum := 0x0171#16) hi rfl rfl
  · exact whenIdle_encodeCommand_code (c := .sleep) (sum := 0x0173#16) hi rfl rfl
  · exact whenIdle_encodeCommand_code (c := .wake) (sum := 0x0174#16) hi rfl rfl

/-! ### Operands with no frame -/

/-- The words `0x36` and `0x37` are operation 3 with the operands `011x` (R100, R101). -/
theorem encodeRsvd67Word_eq (x : BitVec 1) : 0x36#8 + x.setWidth 8 = requestWord 3#4 (3#3 ++ x) := by
  revert x; decide

/-- The words `0x38` to `0x3F` are operation 3 with the operands `1xxx` (R100, R101). -/
theorem encodeRsvd815Word_eq (x : BitVec 3) : 0x38#8 + x.setWidth 8 = requestWord 3#4 (1#1 ++ x) := by
  revert x; decide

/-- Settles O22: the three operations have one effect, and the reserved words are theirs by operand. -/
theorem encodeWithoutFrameClearsTxvalid : Obligations.EncodeWithoutFrameClearsTxvalid := by
  intro s x y hi
  have hdrop := whenIdle_idle Block.dropTx hi
  rw [encodeRsvd67Word_eq, encodeRsvd815Word_eq]
  exact ⟨rfl, decode_opreq_of_ok (decodeRequest_encodeRsvd67 x) [], decode_opreq_of_ok (decodeRequest_encodeRsvd815 y) [],
    hdrop, hdrop, hdrop⟩

/-! ### A command frame in the receive queue -/

/-- Where a measurement frame has its length field, a command frame has `0x0000` or `0x0001` (R96, R198 (e)). -/
theorem frameOf_header {c : Command} (hc : c ≠ .reset) :
    ∃ l : Byte, (l = 0x00#8 ∨ l = 0x01#8) ∧ frameOf c = 0x42#8 :: 0x4D#8 :: 0x00#8 :: l :: (frameOf c).drop 4 := by
  cases c with
  | readData => exact ⟨0x00#8, .inl rfl, rfl⟩
  | setPassive => exact ⟨0x00#8, .inl rfl, rfl⟩
  | setActive => exact ⟨0x01#8, .inr rfl, rfl⟩
  | sleep => exact ⟨0x00#8, .inl rfl, rfl⟩
  | wake => exact ⟨0x01#8, .inr rfl, rfl⟩
  | reset => exact absurd rfl hc

/-- Settles O18: the bytes read as the length field are zero or odd, and a DECODE rejects both. -/
theorem echoedCommandFrameIsRejected : Obligations.EchoedCommandFrameIsRejected := by
  intro s n c rest hc hn hi hq hl
  obtain ⟨l, hlow, hframe⟩ := frameOf_header hc
  have hbad : (0x00#8 ++ l).toNat % 2 = 1 ∨ 0x00#8 ++ l = 0#16 ∨ 56 < (0x00#8 ++ l).toNat := by
    obtain rfl | rfl := hlow
    · exact .inr (.inl rfl)
    · exact .inl rfl
  have hbytes : s.block.rxq = 0x42#8 :: 0x4D#8 :: 0x00#8 :: l :: ((frameOf c).drop 4 ++ rest) :=
    hq.trans (congrArg (· ++ rest) hframe)
  obtain ⟨k1, hstart, hrun⟩ := decodeOfABadLengthReportsMismatch s n _ _ _ _ hn hi hbytes hl hbad
  exact ⟨k1, _, hstart, hrun, rfl, rfl, rfl, rfl⟩

end Sys2Proof.Machine
end

section
/-! PROOF. Big-endian numbers and the byte sum (R210 to R214): the sum as a number, its order, and how large it gets. -/

namespace Sys2Proof.Machine

/-- Settles O26: the value, then assembling and splitting in both orders. -/
theorem bigEndianIsABijection : Obligations.BigEndianIsABijection :=
  fun h l v => ⟨be16_toNat h l, hi_be16 h l, lo_be16 h l, be16_hi_lo v⟩

/-- Settles O27, by induction on the bytes: each addition is one of numbers modulo 65536. -/
theorem byteSumIsModulo65536 : Obligations.ByteSumIsModulo65536 := by
  intro bytes
  induction bytes with
  | nil => rfl
  | cons b bytes ih =>
    have hb : b.toNat < 2 ^ 16 := b.isLt.trans (by decide)
    rw [sum16_cons, BitVec.toNat_add, ih, BitVec.toNat_setWidth, Nat.mod_eq_of_lt hb, Nat.add_mod_mod, List.map_cons,
      List.sum_cons]

/-- Settles O28: two additions of a byte commute, and a permutation is a sequence of such exchanges. -/
theorem byteSumIsOrderIndependent : Obligations.ByteSumIsOrderIndependent :=
  fun _ _ hperm => hperm.foldl_eq' (fun b _ c _ acc => addByte_comm acc b c) 0#16

/-- At most 58 bytes of a frame are summed: its length field, at most 56, counts the payload and the two checksum bytes, and
the header has four (R157, R164 item 8). -/
theorem Block.Legal.summed_le {k : Block} (h : k.Legal) : k.summed ≤ 58 := by
  cases hph : k.phase with
  | pay =>
    obtain ⟨-, hlen, hpos⟩ := h.pay hph
    simp only [Block.summed, hph]
    omega
  | chkh =>
    obtain ⟨-, -, hlen, -⟩ := h.chk (.inl hph)
    simp only [Block.summed, hph]
    omega
  | chkl =>
    obtain ⟨-, -, hlen, -⟩ := h.chk (.inr hph)
    simp only [Block.summed, hph]
    omega
  | _ => simp [Block.summed, hph]

/-- The sums of the five command frames; reset has no frame (R96, R97). -/
theorem frameOf_sum_le (c : Command) : (sum16 ((frameOf c).take 5)).toNat ≤ 0x0174 := by
  cases c <;> decide

/-- Settles O40: at most 58 bytes are summed, each at most 255. -/
theorem sumNeverWrapsDuringDecode : Obligations.SumNeverWrapsDuringDecode := by
  refine ⟨fun k hl hp hd => ?_, frameOf_sum_le⟩
  calc k.sum.toNat ≤ 255 * k.summed := hp.sum hd
    _ ≤ 255 * 58 := Nat.mul_le_mul_left 255 hl.summed_le

end Sys2Proof.Machine
end

section
/-! PROOF. The sequencer (R220): the block's turn is its micro-step, and in a legal state no turn stops. -/

namespace Sys2Proof.Machine

/-- Settles O33: the scheduled turn of the block and the default one both take its micro-step. -/
theorem stepRunsTheMicroStep : Obligations.StepRunsTheMicroStep := by
  intro s k hk
  constructor
  · intro es hs
    exact (step_scheduled hs).trans (takeEvent_block hk)
  · intro hs he
    exact step_default_micro hs he hk

/-- Settles O38: the one fault is a record index above 12, which the bound of R41 on `NREQ` rules out. -/
theorem noStepStops : Obligations.NoStepStops := fun _ hl => step_total hl.nreq

end Sys2Proof.Machine
end

section
/-! PROOF. The host's turn in a session call (R251): one rule for each act, and runs of the machine step by step. -/

namespace Sys2Proof.Machine

variable {s : State} {es : List Event} {acts : List SessionAct}

/-! ### Acts that only go on -/

/-- A line is driven (R249). -/
theorem step_pin {p : Byte} {l : Level} (hs : s.sched = .host :: es) (ht : s.todo = .pin p l :: acts) :
    step s = .next { s with sched := es, todo := acts, pins := s.pins ++ [⟨p, l⟩] } := by
  rw [step_session hs ht]
  rfl

/-- The modes follow a command (R241). -/
theorem step_update {c : Command} (hs : s.sched = .host :: es) (ht : s.todo = .update c :: acts) :
    step s = .next { s with sched := es, todo := acts, session := s.session.afterCommand c } := by
  rw [step_session hs ht]
  rfl

/-- Both flags are cleared (R234). -/
theorem step_clearFlags (hs : s.sched = .host :: es) (ht : s.todo = .clearFlags :: acts) :
    step s = .next { s with
      sched := es, todo := acts, session := { s.session with hasReceivedData := false, hasSentCommand := false } } := by
  rw [step_session hs ht]
  rfl

/-- A command is noted as sent (R242). -/
theorem step_markSent (hs : s.sched = .host :: es) (ht : s.todo = .markSent :: acts) :
    step s = .next { s with sched := es, todo := acts, session := { s.session with hasSentCommand := true } } := by
  rw [step_session hs ht]
  rfl

/-- The call returns a truth value. -/
theorem step_finish {b : Bool} (hs : s.sched = .host :: es) (ht : s.todo = .finish b :: acts) :
    step s = .next { s with sched := es, todo := [], result := some (.truth b) } := by
  rw [step_session hs ht]
  rfl

/-- The call returns the outcome of its wait (R245). -/
theorem step_finishWait (hs : s.sched = .host :: es) (ht : s.todo = .finishWait :: acts) :
    step s = .next { s with sched := es, todo := [], result := some (.truth s.waitOk) } := by
  rw [step_session hs ht]
  rfl

/-- The end of a read: the result is `STATUS`, and the flag is set on OK (R243). -/
theorem step_finishRead (hs : s.sched = .host :: es) (ht : s.todo = .finishRead :: acts) :
    step s = .next { s with
      sched := es, todo := [], result := some (.status s.block.status)
      session := { s.session with
        hasReceivedData := decide (s.block.status = .ok) || s.session.hasReceivedData } } := by
  rw [step_session hs ht]
  rfl

/-- A frame is dropped after a wait that succeeded, and only then (R109, R238). -/
theorem step_dropAck (hs : s.sched = .host :: es) (ht : s.todo = .dropAck :: acts) :
    step s = .next { s with sched := es, todo := if s.waitOk then planDropFrame ++ acts else acts } := by
  rw [step_session hs ht]
  rfl

/-- `BUSY` is polled until the block is idle (R272). -/
theorem step_await (hs : s.sched = .host :: es) (ht : s.todo = .await :: acts) :
    step s = .next { s with sched := es, todo := if s.block.phase = .idle then acts else s.todo } := by
  rw [step_session hs ht]
  simp only [sessionTurn, State.sessionPlain]
  split <;> rfl

/-! ### Requests and writes -/

/-- A request of the call runs on an idle block (R73). -/
theorem step_sessionRequest_idle {w : Byte} {i : Instr} (hs : s.sched = .host :: es) (ht : s.todo = .request w :: acts)
    (hi : s.block.phase = .idle) (hd : decode .opreq [w] = .ok (i, [])) :
    step s = exec i { s with sched := es, todo := acts } :=
  (stepRunsTheDecodedInstruction s i es).2.1 w acts hs ht hi hd

/-- `FLUSH` on an idle block (R134). -/
theorem step_flush (hs : s.sched = .host :: es) (ht : s.todo = .request wordFlush :: acts) (hi : s.block.phase = .idle) :
    step s = .next { s with sched := es, todo := acts, block := { s.block with rxq := [] } } :=
  (step_sessionRequest_idle (i := .flush) hs ht hi rfl).trans (whenIdle_idle _ hi)

/-- `ENCODE c` on an idle block (R190, R196). -/
theorem step_encode {c : Command} {k : Block} (hs : s.sched = .host :: es)
    (ht : s.todo = .request (wordEncode c) :: acts) (hi : s.block.phase = .idle) (hk : encodeCommand c s.block = k) :
    step s = .next { s with sched := es, todo := acts, block := k } := by
  subst hk
  refine Eq.trans ?_ (whenIdle_idle (s := { s with sched := es, todo := acts }) (encodeCommand c) hi)
  cases c with
  | readData => exact step_sessionRequest_idle (i := .encodeRead) hs ht hi rfl
  | setPassive => exact step_sessionRequest_idle (i := .encodePassive) hs ht hi rfl
  | setActive => exact step_sessionRequest_idle (i := .encodeActive) hs ht hi rfl
  | sleep => exact step_sessionRequest_idle (i := .encodeSleep) hs ht hi rfl
  | wake => exact step_sessionRequest_idle (i := .encodeWake) hs ht hi rfl
  | reset => exact step_sessionRequest_idle (i := .encodeReset) hs ht hi rfl

/-- A write that moves all its bytes (R236, R248). -/
theorem step_write {start count : Nat} {bytes : List Byte} (hs : s.sched = .host :: es)
    (ht : s.todo = .write start count :: acts) (hb : s.block.txSlice start count = bytes) :
    step s = .next { s with sched := es, todo := acts, txwire := s.txwire ++ bytes } := by
  rw [step_session hs ht, ← hb]
  rfl

/-! ### Bounded waits -/

/-- Enough bytes are queued (R245). -/
theorem step_wait_fulfilled {need : Nat} {atOnce : Bool} (hs : s.sched = .host :: es)
    (ht : s.todo = .wait need atOnce :: acts) (hq : need ≤ s.block.rxq.length) :
    step s = .next { s with sched := es, todo := acts, waitOk := true } := by
  rw [step_session hs ht]
  exact if_pos hq

/-- A wait of duration 0 fails at once (R245). -/
theorem step_wait_atOnce {need : Nat} (hs : s.sched = .host :: es) (ht : s.todo = .wait need true :: acts)
    (hq : s.block.rxq.length < need) : step s = .next { s with sched := es, todo := acts, waitOk := false } := by
  rw [step_session hs ht]
  exact if_neg hq.not_ge

/-- A poll that finds too few bytes changes nothing (R245). -/
theorem step_wait_poll {need : Nat} (hs : s.sched = .host :: es) (ht : s.todo = .wait need false :: acts)
    (hq : s.block.rxq.length < need) : step s = .next { s with sched := es } := by
  rw [step_session hs ht]
  exact if_neg hq.not_ge

/-- A wait whose time runs out fails if too few bytes are queued (R245). -/
theorem step_wait_expires {need : Nat} {atOnce : Bool} (hs : s.sched = .waitExpires :: es)
    (ht : s.todo = .wait need atOnce :: acts) (hq : s.block.rxq.length < need) :
    step s = .next { s with sched := es, todo := acts, waitOk := false } := by
  rw [step_scheduled hs]
  simp only [takeEvent, hostTurn, ht]
  exact if_neg hq.not_ge

/-- A wait whose condition holds does not expire (R245). -/
theorem step_wait_not_expired {need : Nat} {atOnce : Bool} (hs : s.sched = .waitExpires :: es)
    (ht : s.todo = .wait need atOnce :: acts) (hq : need ≤ s.block.rxq.length) : step s = .next { s with sched := es } := by
  rw [step_scheduled hs]
  simp only [takeEvent, hostTurn, ht]
  exact if_pos hq

/-! ### Runs

A run is built from the rules in order. Each rule asks for the heads of the schedule and of the call, which hold by `rfl` in the
state that the rule before it leaves. -/

/-- A step, then the rest of the run. -/
theorem run_step {t : State} {n : Nat} {r : Host.Outcome State Fault Refusal} (h : step s = .next t)
    (hr : Host.Core.run Sys2Proof.core n t = r) : Host.Core.run Sys2Proof.core (n + 1) s = r :=
  (core_run_succ n h).trans hr

/-- Two runs in succession. -/
theorem run_trans {s t : State} {m n : Nat} {r : Host.Outcome State Fault Refusal}
    (h : Host.Core.run Sys2Proof.core m s = .next t) (hr : Host.Core.run Sys2Proof.core n t = r) :
    Host.Core.run Sys2Proof.core (m + n) s = r := by
  induction m generalizing s with
  | zero => cases h; rw [Nat.zero_add]; exact hr
  | succ m ih =>
    rw [Nat.succ_add]
    cases hstep : step s with
    | next u => exact run_step hstep (ih ((core_run_succ m hstep).symm.trans h))
    | fault r => simp [Host.Core.run, Sys2Proof.core, hstep] at h
    | refused r => simp [Host.Core.run, Sys2Proof.core, hstep] at h

/-- Any number of polls that find too few bytes (R245). -/
theorem run_polls {s : State} {need polls : Nat} (hs : s.sched = List.replicate polls .host ++ es)
    (ht : s.todo = .wait need false :: acts) (hq : s.block.rxq.length < need) :
    Host.Core.run Sys2Proof.core polls s = .next { s with sched := es } := by
  induction polls generalizing s with
  | zero => rw [show es = s.sched from hs.symm]; rfl
  | succ polls ih => exact run_step (step_wait_poll hs ht hq) (ih rfl ht hq)

/-- A grace wait, whichever way it goes, and the call goes on behind it (R234, R235, R239). -/
theorem run_graceWait {grace : Nat} {answer : List Event} {q : List Byte} {ok : Bool}
    (h : GraceWait grace s.block.rxq s.waitOk answer q ok) (hs : s.sched = answer ++ es)
    (ht : s.todo = graceWait grace ++ acts) :
    Host.Core.run Sys2Proof.core answer.length s =
      .next { s with sched := es, todo := acts, block := { s.block with rxq := q }, waitOk := ok } := by
  have hwait : 0 < grace → s.todo = .wait 1 false :: acts := fun hg => by rw [ht, graceWait, if_pos hg]; rfl
  cases h with
  | absent hg =>
    rw [graceWait, if_neg (by omega)] at ht
    rw [show es = s.sched from hs.symm, show acts = s.todo from ht.symm]
    rfl
  | fulfilled hg hq => exact run_step (step_wait_fulfilled hs (hwait hg) (List.length_pos_of_ne_nil hq)) rfl
  | expires hg hq =>
    rw [← hq]
    exact run_step (step_wait_expires hs (hwait hg) (by simp [hq])) rfl
  | arrives hg hq b =>
    have hpush : s.block.rxPush b = { s.block with rxq := [b] } := by
      rw [Block.rxPush, hq, push_of_room b (by have := rxDepth_ge; simp; omega)]
      rfl
    have harrive : step s = .next { s with sched := .host :: es, block := { s.block with rxq := [b] } } := by
      rw [step_scheduled hs, ← hpush]
      rfl
    exact run_step harrive (run_step (step_wait_fulfilled rfl (hwait hg) le_rfl) rfl)

end Sys2Proof.Machine
end

section
/-! PROOF. The session's answers that take one turn of the host: its writes, the ends of its calls, and its waits
(R238, R241, R243 to R248). -/

namespace Sys2Proof.Machine

/-! ### Writes -/

/-- A frame of the transmit stream goes out as its bytes (R97, R240). -/
theorem exec_transmits {i : Instr} (hi : i.channel = .tx) (s : State) : exec i s = .next (s.transmit (encode i)) := by
  cases i with
  | cmdRead | cmdPassive | cmdActive | cmdSleep | cmdWake => rfl
  | _ => cases hi

/-- A plain write appends its bytes to the wire, whether or not they are a command frame (R248). -/
theorem transmitUnit_eq (after : State) (bytes : List Byte) : after.transmitUnit bytes = .next (after.transmit bytes) := by
  unfold State.transmitUnit
  split
  · rename_i i hd
    obtain ⟨-, hchannel, hbytes⟩ := decodedBytesAreTheEncoding .tx bytes i [] hd
    rw [exec_transmits hchannel, hbytes, List.append_nil]
  · rfl

/-- A slice within the buffer has the length asked for (R32). -/
theorem length_txSlice {k : Block} {start count : Nat} (h : start + count ≤ 7) : (k.txSlice start count).length = count := by
  simp only [Block.txSlice, List.length_take, List.length_drop, Vector.length_toList]
  omega

/-- A short write of the session ends the call (R246). -/
theorem step_write_short {s : State} {es : List Event} {acts : List SessionAct} {start count m : Nat}
    (hs : s.sched = .hostWrite m :: es) (ht : s.todo = .write start count :: acts)
    (hm : m < (s.block.txSlice start count).length) :
    step s = .next { s with
      sched := es, todo := [], result := some (.truth false)
      txwire := s.txwire ++ (s.block.txSlice start count).take m } := by
  rw [step_scheduled hs]
  simp only [takeEvent, hostTurn, ht]
  exact if_pos hm

/-- A plain write that is answered with a count moves as many bytes (R248). -/
theorem step_transmit_count {s : State} {es : List Event} {ps : List HostAct} {bytes : List Byte} {m : Nat}
    (hs : s.sched = .hostWrite m :: es) (ht : s.todo = []) (hp : s.program = .transmit bytes :: ps) :
    step s = .next { s with
      sched := es, program := ps, result := some (.written (min m bytes.length)), txwire := s.txwire ++ bytes.take m } := by
  rw [step_scheduled hs]
  simp only [takeEvent, hostTurn, ht, hp, programTurn, transmitUnit_eq]
  split
  · rw [Nat.min_eq_left (by omega)]; rfl
  · rw [Nat.min_eq_right (by omega), List.take_of_length_le (by omega)]; rfl

/-- Settles O49: a short write of the session, then a plain write with its count. -/
theorem shortWriteFailsAndKeepsBeliefs : Obligations.ShortWriteFailsAndKeepsBeliefs := by
  intro s m es hs
  refine ⟨fun start count acts ht hslice hm => ?_, fun bytes ps ht hp => step_transmit_count hs ht hp⟩
  have htake : (s.block.txSlice start count).take m = (s.block.txbuf.toList.drop start).take m := by
    rw [Block.txSlice, List.take_take, Nat.min_eq_left hm.le]
  rw [← htake]
  exact step_write_short hs ht (by rwa [length_txSlice hslice])

/-! ### Updates and ends of calls -/

/-- Settles O48: the update is the table's row for the command. -/
theorem modeUpdateFollowsTheTable : Obligations.ModeUpdateFollowsTheTable := by
  intro s c acts es hs ht
  refine ⟨s.session.afterCommand c, step_update hs ht, ?_⟩
  cases c <;> exact ⟨rfl, rfl, rfl⟩

/-- Settles O59: the call's result is the model's conjunction of the two flags. -/
theorem isWorkingNeedsBothFlags : Obligations.IsWorkingNeedsBothFlags := by
  intro s ps es hs ht hp
  rw [step_program hs ht hp]
  rfl

/-- The words of `SKIP` and `DECODE 0` are those of `DROPFRAME` (R100, R109). -/
theorem planDropFrame_eq : planDropFrame = [.request 0x10#8, .await, .request 0x20#8, .await] := rfl

/-- The words of a read: `SKIP`, then `DECODE n` (R100, R243). -/
theorem planRead_eq (n : Fin 14) :
    planRead n = [.request 0x10#8, .await, .request (0x20#8 + BitVec.ofNat 8 n), .await, .finishRead] := by
  revert n; decide

/-- Settles O57: the outcome of the wait decides whether `DROPFRAME` comes next. -/
theorem acknowledgementIsDroppedAsOneFrame : Obligations.AcknowledgementIsDroppedAsOneFrame := by
  intro s acts es hs ht
  have hdrop := step_dropAck hs ht
  refine ⟨fun hw => ?_, fun hw => ?_⟩
  · rw [hdrop, hw, if_pos rfl, planDropFrame_eq]
    rfl
  · rw [hdrop, hw]
    rfl

/-- Settles O55: the call with and without a transport, the polling, and the two ends of a read. -/
theorem readMeasurementReturnsTheStatus : Obligations.ReadMeasurementReturnsTheStatus := by
  intro s es hs
  refine ⟨fun n ps ht hp ha => ?call, fun acts ht => step_await hs ht,
    fun n ps ht hp ha => ⟨?noTransport, rfl, fun c => ?code⟩, fun acts ht hok => ?measured, fun acts ht hbad => ?failed⟩
  case call =>
    rw [step_program hs ht hp, ← planRead_eq]
    exact if_pos ha
  case noTransport =>
    rw [step_program hs ht hp]
    exact if_neg (by simp [ha])
  case code =>
    cases c <;> decide
  case measured => rw [step_finishRead hs ht, hok]; rfl
  case failed => rw [step_finishRead hs ht, decide_eq_false hbad]; rfl

/-! ### Bounded waits -/

/-- `waitForData` waits for one byte, `waitForAck` for `ACK_BYTES` (R245, R250). -/
theorem step_waitCall {s : State} {d need : Nat} {ps : List HostAct} {es : List Event} (hs : s.sched = .host :: es)
    (ht : s.todo = [])
    (hp : s.program = .waitForData d :: ps ∧ need = 1 ∨ s.program = .waitForAck d :: ps ∧ need = Config.ackBytes) :
    step s = .next { s with sched := es, program := ps, todo := [.wait need (decide (d = 0)), .finishWait] } := by
  obtain ⟨hp, rfl⟩ | ⟨hp, rfl⟩ := hp <;> (rw [step_program hs ht hp]; rfl)

/-- Settles O56: the act of waiting, case by case, then the calls: their wait, its polls, and the return of its outcome. -/
theorem boundedWaitAnswersAvailability : Obligations.BoundedWaitAnswersAvailability := by
  refine ⟨fun s need atOnce acts es ht => ⟨fun hs hq => step_wait_fulfilled hs ht hq, fun hs hq h => ?_, fun hs hq h => ?_,
    fun hs hq => step_wait_expires hs ht hq, fun hs hq => step_wait_not_expired hs ht hq⟩, ?_⟩
  · subst h; exact step_wait_atOnce hs ht hq
  · subst h; exact step_wait_poll hs ht hq
  intro s d need ps es ht hp
  rw [ht]
  refine ⟨fun hs hq => ?_, fun hs hd hq => ?_, fun polls hs hd hq => ?_⟩
  · exact run_step (step_waitCall hs ht hp) <| run_step (step_wait_fulfilled rfl rfl hq) <|
      run_step (step_finishWait rfl rfl) rfl
  · have hcall := step_waitCall hs ht hp
    rw [decide_eq_true hd] at hcall
    exact run_step hcall <| run_step (step_wait_atOnce rfl rfl hq) <| run_step (step_finishWait rfl rfl) rfl
  · have hcall := step_waitCall hs ht hp
    rw [decide_eq_false hd.ne'] at hcall
    exact run_step hcall <| run_trans (run_polls (List.append_assoc _ _ _) rfl hq) <|
      run_step (step_wait_expires rfl rfl hq) <| run_step (step_finishWait rfl rfl) rfl

end Sys2Proof.Machine
end

section
/-! PROOF. `sendCommand` (R233 to R242): each path as a run of the host's turns, one act after the other. -/

namespace Sys2Proof.Machine

/-! ### The start of the call, and its plans -/

section Plans

variable {c : Command} {grace : Nat}

/-- The call begins with its plan (R233). -/
theorem step_sendCommand {s : State} {es : List Event} {ps : List HostAct} {plan : List SessionAct}
    (hs : s.sched = .host :: es) (ht : s.todo = []) (hp : s.program = .sendCommand c grace :: ps)
    (hplan : planSend s.session c grace = plan) :
    step s = .next { s with sched := es, program := ps, todo := plan } := by
  rw [step_program hs ht hp, ← hplan]
  rfl

/-- Without a transport, or for reset without a reset line, the call only answers `false` (R233, R234). -/
theorem planSend_withoutMeans {e : Session} (h : e.attached = false ∨ c = .reset ∧ e.resetPin = none) :
    planSend e c grace = [.finish false] := by
  unfold planSend
  obtain ha | ⟨rfl, hpin⟩ := h
  · rw [if_neg (by simp [ha])]
  · split
    · simp only [hpin]
    · rfl

/-- Reset goes through its line (R234). -/
theorem planSend_reset {e : Session} {p : Byte} (ha : e.attached = true) (hpin : e.resetPin = some p) :
    planSend e .reset grace = planReset p grace := by
  unfold planSend
  simp only [ha, hpin, if_true]

/-- Sleep and wake go through the sleep line where there is one (R235). -/
theorem planSend_sleepPin {e : Session} {p : Byte} (hc : c = .sleep ∨ c = .wake) (ha : e.attached = true)
    (hpin : e.sleepPin = some p) : planSend e c grace = planSleepPin p c grace := by
  unfold planSend
  rw [if_pos ha]
  obtain rfl | rfl := hc <;> simp only [hpin]

/-- Every other command takes the protocol path, and so do sleep and wake without a sleep line (R236). -/
theorem planSend_protocol {e : Session} (ha : e.attached = true) (hreset : c ≠ .reset)
    (hline : c = .sleep ∨ c = .wake → e.sleepPin = none) : planSend e c grace = planProtocol c grace := by
  unfold planSend
  rw [if_pos ha]
  cases c with
  | readData | setPassive | setActive => rfl
  | sleep => simp only [hline (.inl rfl)]
  | wake => simp only [hline (.inr rfl)]
  | reset => exact absurd rfl hreset

/-- The plan of a command with an acknowledgement (R236 to R239). -/
theorem planProtocol_acked (h : commandAcked c = true) : planProtocol c grace =
    .request (wordEncode c) :: .write 0 5 :: .request wordFlush :: .write 5 2 :: .wait Config.ackBytes false :: .dropAck ::
      (graceWait (if c = .wake then grace else 0) ++ [.update c, .markSent, .finish true]) := by
  have hgrace : (if c = .wake then graceWait grace else []) = graceWait (if c = .wake then grace else 0) := by
    split <;> rfl
  rw [planProtocol, h, hgrace]
  simp

end Plans

/-! ### Calls that send no frame -/

/-- Settles O50: the plan is to answer `false`. -/
theorem commandWithoutMeansReturnsFalse : Obligations.CommandWithoutMeansReturnsFalse := by
  intro s c grace ps es hs ht hp hmeans
  rw [ht]
  exact run_step (step_sendCommand hs ht hp (planSend_withoutMeans hmeans)) <| run_step (step_finish rfl rfl) rfl

/-- Settles O51: the acts of the plan, then the grace wait on the flushed queue. -/
theorem resetLinePulsesAndFlushes : Obligations.ResetLinePulsesAndFlushes := by
  intro s p grace answer q ok ps es hgrace hs ht hp hi ha hpin
  rw [ht, List.append_cons, show 7 + answer.length = 6 + (answer.length + 1) by omega]
  exact run_trans
    (run_step (step_sendCommand hs ht hp (planSend_reset ha hpin)) <| run_step (step_pin rfl rfl) <|
      run_step (step_pin rfl rfl) <| run_step (step_flush rfl rfl hi) <| run_step (step_update rfl rfl) <|
      run_step (step_clearFlags rfl rfl) rfl)
    (run_trans (run_graceWait hgrace rfl rfl) <| run_step (step_finish rfl rfl) rfl)

/-- Settles O52: the line, the modes, for wake the grace wait, and the return. -/
theorem sleepLineReplacesTheFrame : Obligations.SleepLineReplacesTheFrame := by
  intro s p grace answer q ok ps es ht ha hpin
  rw [ht]
  refine ⟨fun hs hp => ?sleep, fun hgrace hs hp => ?wake⟩
  case sleep =>
    exact run_step (step_sendCommand hs ht hp (planSend_sleepPin (.inl rfl) ha hpin)) <| run_step (step_pin rfl rfl) <|
      run_step (step_update rfl rfl) <| run_step (step_finish rfl rfl) rfl
  case wake =>
    rw [show 4 + answer.length = 3 + (answer.length + 1) by omega]
    exact run_trans
      (run_step (step_sendCommand hs ht hp (planSend_sleepPin (.inr rfl) ha hpin)) <| run_step (step_pin rfl rfl) <|
        run_step (step_update rfl rfl) rfl)
      (run_trans (run_graceWait hgrace rfl rfl) <| run_step (step_finish rfl rfl) rfl)

/-! ### The protocol path -/

/-- `ENCODE` of a command that has a frame puts that frame in the buffer (R190). -/
theorem encodeCommand_frame {c : Command} (hc : c ≠ .reset) (k : Block) :
    ∃ tx : Vector Byte 7, tx.toList = frameOf c ∧ encodeCommand c k = { k with txbuf := tx, txvalid := true } := by
  cases c with
  | reset => exact absurd rfl hc
  | _ => exact ⟨_, rfl, rfl⟩

/-- The two writes of the protocol path take the frame apart after its fifth byte (R236, R240). -/
theorem txSlice_frame {k : Block} {frame : List Byte} (h : k.txbuf.toList = frame) :
    k.txSlice 0 5 = frame.take 5 ∧ k.txSlice 5 2 = frame.drop 5 := by
  have hlen : (frame.drop 5).length ≤ 2 := by rw [← h, List.length_drop, Vector.length_toList]
  rw [Block.txSlice, Block.txSlice, h]
  exact ⟨rfl, List.take_of_length_le hlen⟩

/-- Settles O54: encoded, written in two parts, noted. -/
theorem unacknowledgedCommandIsSent : Obligations.UnacknowledgedCommandIsSent := by
  intro s c grace ps es hs ht hp hi ha hc
  have hreset : c ≠ .reset := by rintro rfl; simp at hc
  have hplan : planSend s.session c grace =
      [.request (wordEncode c), .write 0 5, .write 5 2, .update c, .markSent, .finish true] := by
    rw [planSend_protocol ha hreset (by rintro (rfl | rfl) <;> simp at hc)]
    obtain rfl | rfl := hc <;> rfl
  obtain ⟨tx, hframe, hencode⟩ := encodeCommand_frame hreset s.block
  obtain ⟨hfirst, hlast⟩ := txSlice_frame (k := { s.block with txbuf := tx, txvalid := true }) hframe
  refine ⟨tx, hframe, ?_⟩
  rw [ht, ← List.take_append_drop 5 (frameOf c), ← List.append_assoc]
  exact run_step (step_sendCommand hs ht hp hplan) <| run_step (step_encode rfl rfl hi hencode) <|
    run_step (step_write rfl rfl hfirst) <| run_step (step_write rfl rfl hlast) <| run_step (step_update rfl rfl) <|
    run_step (step_markSent rfl rfl) <| run_step (step_finish rfl rfl) rfl

/-- Settles O53: the frame in two parts with the flush between them, the waits, the update. -/
theorem acknowledgedCommandIsSent : Obligations.AcknowledgedCommandIsSent := by
  intro s c grace answer q ok ps es hgrace hs ht hp hi ha hc
  have hreset : c ≠ .reset := by rintro rfl; simp at hc
  have hacked : commandAcked c = true := by obtain rfl | ⟨rfl | rfl, -⟩ := hc <;> rfl
  have hplan : planSend s.session c grace = _ :=
    (planSend_protocol ha hreset fun h => (hc.resolve_left (by rintro rfl; simp at h)).2).trans (planProtocol_acked hacked)
  obtain ⟨tx, hframe, hencode⟩ := encodeCommand_frame hreset s.block
  obtain ⟨hfirst, hlast⟩ := txSlice_frame (k := { s.block with txbuf := tx, txvalid := true }) hframe
  have hwire : s.txwire ++ (frameOf c).take 5 ++ (frameOf c).drop 5 = s.txwire ++ frameOf c := by
    rw [List.append_assoc, List.take_append_drop]
  have h3 : Host.Core.run Sys2Proof.core 3 s = .next _ :=
    run_step (step_sendCommand hs ht hp hplan) <| run_step (step_encode rfl rfl hi hencode) <|
      run_step (step_write rfl rfl hfirst) rfl
  have h4 : Host.Core.run Sys2Proof.core 4 s = .next _ := run_trans (n := 1) h3 (run_step (step_flush rfl rfl hi) rfl)
  have h5 : Host.Core.run Sys2Proof.core 5 s = .next _ := run_trans (n := 1) h4 (run_step (step_write rfl rfl hlast) rfl)
  refine ⟨tx, _, _, _, hframe, h3, rfl, rfl, rfl, h4, rfl, rfl, rfl, h5, hwire, rfl, rfl, ⟨_, rfl⟩, ?_⟩
  rw [ht, ← hwire, show 10 + answer.length = 5 + (answer.length + 3 + 2) by omega]
  exact run_trans h5 <| run_step (step_wait_expires rfl rfl (Nat.succ_pos _)) <| run_step (step_dropAck rfl rfl) <|
    run_trans (run_graceWait hgrace (List.append_assoc _ _ _) rfl) <| run_step (step_update rfl rfl) <|
    run_step (step_markSent rfl rfl) <| run_step (step_finish rfl rfl) rfl

end Sys2Proof.Machine
end

section
/-! PROOF. Who writes the session's beliefs (R231): four acts of a session call, each in the host's turn, and nothing else. -/

namespace Sys2Proof.Machine

/-- The writers of the session `e`: an act of a call, made while `STATUS` is `c`, and the session it leaves. -/
inductive BeliefWrite (e : Session) (c : Status) : SessionAct → Session → Prop
  | update (cmd : Command) : BeliefWrite e c (.update cmd) (e.afterCommand cmd)
  | clearFlags : BeliefWrite e c .clearFlags { e with hasReceivedData := false, hasSentCommand := false }
  | markSent : BeliefWrite e c .markSent { e with hasSentCommand := true }
  | finishRead (hok : c = .ok) : BeliefWrite e c .finishRead { e with hasReceivedData := true }

/-- The next act of the call in progress is a writer of the session, and leaves the session `e'`. -/
def State.WritesBeliefs (s : State) (e' : Session) : Prop :=
  ∃ act acts, s.todo = act :: acts ∧ BeliefWrite s.session s.block.status act e'

/-- What an act that only goes on does to the session (R234, R241 to R243). -/
theorem sessionPlain_session {act : SessionAct} {rest : List SessionAct} {s t : State}
    (h : s.sessionPlain { s with todo := rest } act = .next t) :
    t.session = s.session ∨ BeliefWrite s.session s.block.status act t.session := by
  cases act with
  | update c => cases h; exact .inr (.update c)
  | clearFlags => cases h; exact .inr .clearFlags
  | markSent => cases h; exact .inr .markSent
  | finishRead =>
    cases h
    by_cases hok : s.block.status = .ok
    · simp only [State.finishReading, hok, decide_true, Bool.true_or]
      exact .inr (.finishRead rfl)
    · exact .inl (by simp [State.finishReading, hok])
  | request w => obtain e | e := acceptRequest_frame h <;> (rw [e]; exact .inl rfl)
  | await =>
    simp only [State.sessionPlain] at h
    split at h <;> (cases h; exact .inl rfl)
  | _ => cases h; exact .inl rfl

/-- A write of the session leaves its beliefs alone, short or not (R246). -/
theorem sessionWrite_session {rest : List SessionAct} {bytes : List Byte} {a : Answer} {s t : State}
    (h : s.sessionWrite { s with todo := rest } bytes a = .next t) : t.session = s.session := by
  unfold State.sessionWrite at h
  split at h
  · cases h; rfl
  · split at h <;> (cases h; rfl)
  · cases h; rfl

/-- A wait leaves the beliefs alone, however it ends (R245). -/
theorem sessionWait_session {rest : List SessionAct} {need : Nat} {atOnce : Bool} {a : Answer} {s t : State}
    (h : s.sessionWait { s with todo := rest } need atOnce a = .next t) : t.session = s.session := by
  unfold State.sessionWait at h
  repeat' split at h
  all_goals cases h; rfl

/-- An act of a call leaves the session alone, or the host's turn goes on with one of the writers. -/
theorem sessionTurn_session {a : Answer} {act : SessionAct} {rest : List SessionAct} {s t : State}
    (h : sessionTurn a act rest s = .next t) :
    t.session = s.session ∨ a = .go ∧ BeliefWrite s.session s.block.status act t.session := by
  unfold sessionTurn at h
  split at h
  · exact .inl (sessionWrite_session (rest := rest) h)
  · exact .inl (sessionWait_session (rest := rest) h)
  · split at h
    · exact (sessionPlain_session h).imp_right fun hw => ⟨rfl, hw⟩
    · cases h; exact .inl rfl
    · cases h; exact .inl rfl

/-- The host's turn writes the session only in an act of a call. -/
theorem hostTurn_session {a : Answer} {s t : State} (h : hostTurn a s = .next t) :
    t.session = s.session ∨ a = .go ∧ s.WritesBeliefs t.session := by
  unfold hostTurn at h
  split at h
  · rename_i act rest hact
    exact (sessionTurn_session h).imp_right fun ⟨ha, hw⟩ => ⟨ha, act, rest, hact, hw⟩
  · split at h
    · exact .inl (programTurn_frame h).1
    · cases h; exact .inl rfl

/-- An event writes the session only if it is the host's turn: nothing received writes it, and neither does `RESET`. -/
theorem takeEvent_session {e : Event} {s t : State} (h : takeEvent e s = .next t) :
    t.session = s.session ∨ e = .host ∧ s.WritesBeliefs t.session := by
  cases e with
  | host => exact (hostTurn_session h).imp_right fun ⟨_, hw⟩ => ⟨rfl, hw⟩
  | hostWrite n => exact .inl ((hostTurn_session h).resolve_right fun ⟨ha, _⟩ => nomatch ha)
  | waitExpires => exact .inl ((hostTurn_session h).resolve_right fun ⟨ha, _⟩ => nomatch ha)
  | rxBurst bytes =>
    simp only [takeEvent, State.receiveBurst] at h
    split at h
    · rename_i i rest _
      rw [exec_frame h]
      cases rest <;> exact .inl rfl
    · cases h; exact .inl rfl
  | block =>
    simp only [takeEvent, State.ofMicro] at h
    split at h <;> cases h
    exact .inl rfl
  | rxPush | rxTimeout | reset => cases h; exact .inl rfl

/-- A step writes the session only in the host's turn, in an act of the call in progress. -/
theorem step_writes_session {s t : State} (h : step s = .next t) :
    t.session = s.session ∨ s.nextEvent = .host ∧ s.WritesBeliefs t.session := by
  rw [step_nextEvent] at h
  have hcause := takeEvent_session h
  exact hcause

/-- Settles O58: each writer of the session writes the beliefs that are its own. -/
theorem beliefsChangeOnlyByTheSession : Obligations.BeliefsChangeOnlyByTheSession := by
  intro s t h
  obtain hsame | ⟨he, act, acts, ht, hw⟩ := step_writes_session h
  · simp [hsame]
  refine ⟨fun _ => he, ?_⟩
  generalize t.session = e at hw
  cases hw with
  | update c =>
    have hframe : s.session.afterCommand c = { s.session with
        modeActive := (s.session.afterCommand c).modeActive, modeSleep := (s.session.afterCommand c).modeSleep } := by
      cases c <;> rfl
    rw [hframe]
    simp [ht]
  | clearFlags => simp [ht]
  | markSent => simp [ht]
  | finishRead hok => simp [ht, hok]

end Sys2Proof.Machine
end

section
/-! PROOF. The `RESET` event (R300, R301): what a step that takes it leaves. -/

namespace Sys2Proof.Machine

/-- `RESET` is enabled in every state and writes only the block (R300; log entry 28) and the counter (log entry 22). -/
theorem step_reset {s : State} {es : List Event} (hs : s.sched = .reset :: es) :
    step s = .next { s with sched := es, block := Block.afterReset s.freeCount, freeCount := s.freeCount + 1 } :=
  step_scheduled hs

/-- Settles O2: the step puts `Block.afterReset` in place of the block, and its three fixed registers are those of R301. -/
theorem resetEventClearsBlock : Obligations.ResetEventClearsBlock := by
  intro s es hs
  exact ⟨Block.afterReset s.freeCount, step_reset hs, afterReset_phase _, afterReset_rxq _, afterReset_txvalid _⟩

end Sys2Proof.Machine
end
